-- ==== Sys2Proof/Word.lean ====
section
/-!
DEFINITION. The words of the machine, by the widths spec/ gives them (00_scope.md R7, 30_encoding.md R55, R60).
-/
namespace Sys2Proof

/-- One command word `C`: 20 bits (30_encoding.md R55, `CMD_W`). -/
abbrev CmdWord := BitVec 20

/-- One output word `W`: 18 bits (30_encoding.md R60, `OUT_W`). -/
abbrev OutWord := BitVec 18

/-- One character: `CHAR_W` = 16 bits (00_scope.md R7). -/
abbrev Character := BitVec 16

/-- One byte of the raw stream: 8 bits (00_scope.md R7). -/
abbrev Byte := BitVec 8

/-- The value of one 5-bit group, 0..31 (00_scope.md R7). -/
abbrev SymVal := BitVec 5

/-- The opcode field `OP`: 4 bits (30_encoding.md R55). -/
abbrev Opcode := BitVec 4

end Sys2Proof
end

