-- ==== Sys2Proof/Config.lean ====
section
/-!
DEFINITION. What is fixed when an instance is built (00_scope.md R7-R9): the alphabet, the padding character and the
capacity of the output queue. A configuration that is not valid has no instance (R8), so `Config` carries its check.
-/
namespace Sys2Proof

/-- The build-time choices of 00_scope.md R7, before they are checked. -/
structure ConfigData where
  /-- `ALPHA[0..31]`: 32 characters, index = value (R7, R8). -/
  alpha : Vector Character 32
  /-- `PAD`: the padding character (R7). -/
  pad : Character
  /-- `OUT_DEPTH`: the capacity of `OUTQ` in words; OPEN in the spec, at least 9 (R7). -/
  outDepth : Nat
deriving DecidableEq, Repr

/-- `ValidConfig` of 00_scope.md R8: no two entries of the alphabet are equal. -/
def ConfigData.distinct (d : ConfigData) : Bool :=
  decide (∀ i j : Fin 32, i ≠ j → d.alpha[i] ≠ d.alpha[j])

/-- `ValidConfig` of 00_scope.md R8: the padding character is not in the alphabet. -/
def ConfigData.padApart (d : ConfigData) : Bool :=
  decide (∀ i : Fin 32, d.alpha[i] ≠ d.pad)

/-- A configuration an instance may be built with: `ValidConfig` (00_scope.md R8) and `OUT_DEPTH >= 9` (R7). -/
def ConfigData.valid (d : ConfigData) : Bool :=
  d.distinct && d.padApart && decide (9 ≤ d.outDepth)

/-- A configuration with its check. "A configuration that fails `ValidConfig` is refused: no instance exists and the
model has no state for it" (00_scope.md R8): an invalid one cannot be written down as a `Config`. -/
structure Config extends ConfigData where
  valid : toConfigData.valid = true := by decide +kernel
deriving DecidableEq, Repr

/-- Building an instance (70_reset_and_hazards.md R135, step 1): an invalid choice is refused (00_scope.md R8). -/
def ConfigData.build? (d : ConfigData) : Option Config :=
  if h : d.valid = true then some { d with valid := h } else none

/-- The default alphabet of 00_scope.md R9: `A`-`Z`, then `2`-`7`. -/
def rfc4648Alpha : Vector Character 32 :=
  #v[0x0041, 0x0042, 0x0043, 0x0044, 0x0045, 0x0046, 0x0047, 0x0048,
     0x0049, 0x004A, 0x004B, 0x004C, 0x004D, 0x004E, 0x004F, 0x0050,
     0x0051, 0x0052, 0x0053, 0x0054, 0x0055, 0x0056, 0x0057, 0x0058,
     0x0059, 0x005A, 0x0032, 0x0033, 0x0034, 0x0035, 0x0036, 0x0037]

/-- The default padding character `=` (00_scope.md R7, R9). -/
def rfc4648Pad : Character := 0x003D

/-- The default table with a queue of the smallest legal capacity. The table is the spec's default (R9); the capacity is
DESIGN CHOICE, unsafe: the spec leaves `OUT_DEPTH` OPEN (log entry 1). -/
def Config.default : Config where
  alpha := rfc4648Alpha
  pad := rfc4648Pad
  outDepth := 9

end Sys2Proof
end

