-- ==== Sys2Proof/Syntax.lean ====
section
/-!
DEFINITION. The written forms: the ten commands (44_control.md R111), what a command word decodes to (30_encoding.md R59),
the assembler's lines (R70, R71), the status codes (R65) and the listing forms of output words (R72).
-/
namespace Sys2Proof

/-- The ten commands of spec/opcode_table.json, one constructor a row (30_encoding.md R58, 44_control.md R111, R147). The
operands carry the widths of their forms (30_encoding.md R56, R57), so every term is well formed. -/
inductive Instr where
  /-- `NOP`, 0x0, form Z (R109). -/
  | nop
  /-- `ENC_CLEAR`, 0x1, form Z (R86). -/
  | encClear
  /-- `ENC_BYTE`, 0x2, form B8 (R87). -/
  | encByte (byte : Byte)
  /-- `ENC_END`, 0x3, form Z (R88). -/
  | encEnd
  /-- `DEC_CLEAR`, 0x4, form Z (R94). -/
  | decClear
  /-- `DEC_CHAR`, 0x5, form C16 (R95). -/
  | decChar (ch : Character)
  /-- `DEC_END`, 0x6, form Z (R96). -/
  | decEnd
  /-- `MAP_VAL`, 0x7, form V5 (R104). -/
  | mapVal (val : SymVal)
  /-- `MAP_SYM`, 0x8, form C16 (R105). -/
  | mapSym (ch : Character)
  /-- `STRIP_CHAR`, 0x9, form C16 (R97). -/
  | stripChar (ch : Character)
deriving DecidableEq, Repr

/-- What a command word is (30_encoding.md R59): a command with its operand, or one of the two interface errors. -/
inductive Decoded where
  /-- A legal command: `Cmd(op, operand)`. -/
  | cmd (i : Instr)
  /-- `Illegal(op)`: a reserved opcode 0xA..0xF (44_control.md R110). -/
  | illegal (op : Opcode)
  /-- `BadOperand(op)`: a reserved operand bit is set (R56). -/
  | badOperand (op : Opcode)
deriving DecidableEq, Repr

/-- The status codes 0..3 of 30_encoding.md R65; 4..15 are reserved and never produced. -/
inductive StatusCode where
  | ok
  | invalidSymbol
  | illegalOpcode
  | badOperand
deriving DecidableEq, Repr

/-- One line of assembler source, operands as the numbers written (30_encoding.md R70), and the pseudo-instructions of
R71. A character or a string is given by its codes. -/
inductive AsmLine where
  | nop
  | encClear
  | encByte (byte : Nat)
  | encEnd
  | decClear
  | decChar (ch : Nat)
  | decEnd
  | mapVal (val : Nat)
  | mapSym (ch : Nat)
  | stripChar (ch : Nat)
  /-- `.word <20-bit hex>`: a raw command word. -/
  | word (w : Nat)
  /-- `ENCODE [b0, ..., bk-1]`. -/
  | encodeBytes (bytes : List Nat)
  /-- `ENCODE "s"`, by the codes of `s`. -/
  | encodeText (codes : List Nat)
  /-- `DECODE "t"`, by the codes of `t`. -/
  | decodeText (codes : List Nat)
  /-- `STRIP "t"`, by the codes of `t`. -/
  | stripText (codes : List Nat)
  | abortEnc
  | abortDec
deriving DecidableEq, Repr

/-- How a listing reads an output word (30_encoding.md R72). -/
inductive Listing where
  /-- `SYM 'X'`. -/
  | sym (c : Character)
  /-- `BYTE 0xhh`. -/
  | byte (b : Byte)
  /-- `VAL <n>`. -/
  | val (v : SymVal)
  /-- `VAL PAD`. -/
  | valPad
  /-- `VAL INVALID`. -/
  | valInvalid
  /-- `STATUS <SRC_OP mnemonic> <code name>`. -/
  | status (op : Opcode) (code : StatusCode)
deriving DecidableEq, Repr

end Sys2Proof
end

