-- ==== Sys2Proof/WellFormed.lean ====
section
/-!
DEFINITION. What makes a written term well formed. A term of `Instr` is well formed by its types (30_encoding.md R56, R57:
a byte has 8 bits, a value 5, a character 16). What can be ill formed is a line of assembler source, whose operands are
numbers: "An assembler refuses an operand out of range for its form" (R70). The check of a configuration (00_scope.md R8)
stands in Config.lean.
-/
namespace Sys2Proof

/-- `<byte>: 0..255` (30_encoding.md R70). -/
def byteInRange (n : Nat) : Bool := decide (n ≤ 255)

/-- `<val>: 0..31` (30_encoding.md R70). -/
def valInRange (n : Nat) : Bool := decide (n ≤ 31)

/-- `<char>: 0x0000..0xFFFF` (30_encoding.md R70). -/
def charInRange (n : Nat) : Bool := decide (n ≤ 0xFFFF)

/-- `.word <20-bit hex>` (30_encoding.md R70). -/
def wordInRange (n : Nat) : Bool := decide (n < 2 ^ 20)

/-- The assembler takes a line only if every operand is in range for its form (30_encoding.md R70, R71). -/
def AsmLine.wf : AsmLine → Bool
  | .nop => true
  | .encClear => true
  | .encByte b => byteInRange b
  | .encEnd => true
  | .decClear => true
  | .decChar c => charInRange c
  | .decEnd => true
  | .mapVal v => valInRange v
  | .mapSym c => charInRange c
  | .stripChar c => charInRange c
  | .word w => wordInRange w
  | .encodeBytes bs => bs.all byteInRange
  | .encodeText cs => cs.all byteInRange
  | .decodeText cs => cs.all charInRange
  | .stripText cs => cs.all charInRange
  | .abortEnc => true
  | .abortDec => true

end Sys2Proof
end

