-- ==== Sys2Proof/Decode.lean ====
section
/-!
DEFINITION. Decoding, total on all 2^20 command words and rejecting by name (30_encoding.md R59), the opcode map (R58),
the encoder written from the same tables, and the opcode table's numbering of a word.
-/
namespace Sys2Proof

/-- The field `OP = C[19:16]` (30_encoding.md R55). -/
def opOf (C : CmdWord) : Opcode := C.extractLsb' 16 4

/-- The field `D = C[15:0]` (30_encoding.md R55). -/
def dataOf (C : CmdWord) : BitVec 16 := C.extractLsb' 0 16

/-- Form Z: `D` is all reserved (30_encoding.md R56). -/
def formZ (op : Opcode) (D : BitVec 16) (i : Instr) : Decoded :=
  if D = 0 then .cmd i else .badOperand op

/-- Form B8: `byte = D[7:0]`, `D[15:8]` reserved (30_encoding.md R56, R57). -/
def formB8 (op : Opcode) (D : BitVec 16) (i : Byte → Instr) : Decoded :=
  if D.extractLsb' 8 8 = 0 then .cmd (i (D.extractLsb' 0 8)) else .badOperand op

/-- Form V5: `val = D[4:0]`, `D[15:5]` reserved (30_encoding.md R56, R57). -/
def formV5 (op : Opcode) (D : BitVec 16) (i : SymVal → Instr) : Decoded :=
  if D.extractLsb' 5 11 = 0 then .cmd (i (D.extractLsb' 0 5)) else .badOperand op

/-- What an opcode and its operand field stand for (30_encoding.md R58, R59). The last arm is the reserved-opcode arm
(44_control.md R110, R111). -/
def decodeFields (op : Opcode) (D : BitVec 16) : Decoded :=
  match op.toNat with
  | 0x0 => formZ op D .nop
  | 0x1 => formZ op D .encClear
  | 0x2 => formB8 op D .encByte
  | 0x3 => formZ op D .encEnd
  | 0x4 => formZ op D .decClear
  | 0x5 => .cmd (.decChar D)
  | 0x6 => formZ op D .decEnd
  | 0x7 => formV5 op D .mapVal
  | 0x8 => .cmd (.mapSym D)
  | 0x9 => .cmd (.stripChar D)
  | _ => .illegal op

/-- `decodeCmd` of 30_encoding.md R59: total on all 2^20 words. The opcode is looked at before the operand
(60_exceptions.md R118). -/
def decodeCmd (C : CmdWord) : Decoded := decodeFields (opOf C) (dataOf C)

/-- One row of the opcode map of 30_encoding.md R58. -/
structure OpcodeRow where
  op : Opcode
  mnemonic : String
  fixedBits : CmdWord
  mask : CmdWord
deriving DecidableEq, Repr

/-- The opcode map of 30_encoding.md R58: the ten legal forms by match and mask. -/
def opcodeRows : List OpcodeRow :=
  [ ⟨0x0, "NOP", 0x00000, 0xFFFFF⟩,
    ⟨0x1, "ENC_CLEAR", 0x10000, 0xFFFFF⟩,
    ⟨0x2, "ENC_BYTE", 0x20000, 0xFFF00⟩,
    ⟨0x3, "ENC_END", 0x30000, 0xFFFFF⟩,
    ⟨0x4, "DEC_CLEAR", 0x40000, 0xFFFFF⟩,
    ⟨0x5, "DEC_CHAR", 0x50000, 0xF0000⟩,
    ⟨0x6, "DEC_END", 0x60000, 0xFFFFF⟩,
    ⟨0x7, "MAP_VAL", 0x70000, 0xFFFE0⟩,
    ⟨0x8, "MAP_SYM", 0x80000, 0xF0000⟩,
    ⟨0x9, "STRIP_CHAR", 0x90000, 0xF0000⟩ ]

/-- "The word `C` spells the instruction of a row when `(C & mask) = match`" (30_encoding.md R58). -/
def OpcodeRow.spells (r : OpcodeRow) (C : CmdWord) : Bool := C &&& r.mask == r.fixedBits

/-- The mnemonic of an instruction (30_encoding.md R58). -/
def mnemonicOf : Instr → String
  | .nop => "NOP"
  | .encClear => "ENC_CLEAR"
  | .encByte _ => "ENC_BYTE"
  | .encEnd => "ENC_END"
  | .decClear => "DEC_CLEAR"
  | .decChar _ => "DEC_CHAR"
  | .decEnd => "DEC_END"
  | .mapVal _ => "MAP_VAL"
  | .mapSym _ => "MAP_SYM"
  | .stripChar _ => "STRIP_CHAR"

/-- The word of opcode `op` and operand field `D` (30_encoding.md R55). -/
def cmdWord (op : Opcode) (D : BitVec 16) : CmdWord := op ++ D

/-- The word of an instruction (30_encoding.md R55-R58): the opcode, the operand right-aligned in `D`, reserved bits 0. -/
def encode : Instr → CmdWord
  | .nop => cmdWord 0x0 0
  | .encClear => cmdWord 0x1 0
  | .encByte byte => cmdWord 0x2 (0#8 ++ byte)
  | .encEnd => cmdWord 0x3 0
  | .decClear => cmdWord 0x4 0
  | .decChar ch => cmdWord 0x5 ch
  | .decEnd => cmdWord 0x6 0
  | .mapVal val => cmdWord 0x7 (0#11 ++ val)
  | .mapSym ch => cmdWord 0x8 ch
  | .stripChar ch => cmdWord 0x9 ch

/-- The number of an instruction's bits as spec/opcode_table.json numbers them: the first `nbits` bits of `w`, every bit
above them 0. -/
def tableBits (nbits w : Nat) : Nat := w % 2 ^ nbits

/-- The command word of those bits: the 20 the interface transfers at once (20_memory.md R40), bit 0 the least significant
(00_scope.md R10). -/
def tableWord (nbits w : Nat) : CmdWord := BitVec.ofNat 20 (tableBits nbits w)

/-- The instruction the decoder reads from a word numbered as the opcode table numbers it. A command has 20 bits
(30_encoding.md R68), so a number with a bit above bit 19 is no command word (log entry 15). -/
def decodeTableWord (nbits w : Nat) : Option Instr :=
  if tableBits nbits w < 2 ^ 20 then
    match decodeCmd (tableWord nbits w) with
    | .cmd i => some i
    | .illegal _ => none
    | .badOperand _ => none
  else none

end Sys2Proof
end

