-- ==== Sys2Proof/Machine/State.lean ====
section
/-!
DEFINITION. The state of one instance (10_state.md R21) and of the host that drives it (70_reset_and_hazards.md R141), the
reasons a step can stop, and the state after reset (R131, R134).
-/
namespace Sys2Proof.Machine

/-- The fields of `base32_encoder` (10_state.md R23-R25). -/
structure EncUnit where
  /-- `enc_acc`: pending stream bits, right-aligned, the oldest highest (R23). -/
  acc : BitVec 4
  /-- `enc_nbits`: how many bits of `acc` are pending, 0..4 (R24). -/
  nbits : BitVec 3
  /-- `enc_nsym`: symbols emitted in the frame, modulo 8 (R25). -/
  nsym : BitVec 3
deriving DecidableEq, Repr

/-- The fields of `base32_decoder` (10_state.md R27-R29). -/
structure DecUnit where
  /-- `dec_acc`: pending stream bits, right-aligned (R27). -/
  acc : BitVec 7
  /-- `dec_nbits`: how many bits of `acc` are pending, 0..7 (R28). -/
  nbits : BitVec 3
  /-- `dec_err`: an invalid symbol was seen in the frame; the block's only flag (R29, R34). -/
  err : Bool
deriving DecidableEq, Repr

/-- What happens next in the two-agent system of 00_scope.md R6: the block's turn, or one of the host's three
interactions (70_reset_and_hazards.md R141). -/
inductive Turn where
  /-- The block looks at the head of its input. -/
  | block
  /-- The host appends one command word to the input stream. -/
  | push (C : CmdWord)
  /-- The host takes the head word of `OUTQ`. -/
  | pop
  /-- The host asserts `RST`. -/
  | reset
deriving DecidableEq, Repr

/-- The state record of 10_state.md R21, then the host's part of the system (log entry 3). -/
structure State where
  /-- `ALPHA`, `PAD`, `OUT_DEPTH`: fixed at build (R22, 00_scope.md R7). -/
  cfg : Config
  /-- `enc_acc`, `enc_nbits`, `enc_nsym` (R23-R25). -/
  enc : EncUnit
  /-- `dec_acc`, `dec_nbits`, `dec_err` (R27-R29). -/
  dec : DecUnit
  /-- `OUTQ`: emitted words not yet popped, oldest first (R31). -/
  outq : List OutWord
  /-- `rst_seen` (R32). -/
  rstSeen : Bool
  /-- The host's: pushed command words not yet consumed, oldest first (R20, 70_reset_and_hazards.md R141). -/
  input : List CmdWord
  /-- The model's own: whose turn comes next; when none is listed the block has the turn (log entry 3). -/
  turns : List Turn
  /-- The host's: the words it has popped, oldest first: the observation of a run (70_reset_and_hazards.md R143). -/
  popped : List OutWord
deriving DecidableEq, Repr

/-- Why a step ends the run with a fault. -/
inductive Fault where
  /-- Raised by the host's pop when the head of `OUTQ` is a word the block never produces: "A host that reads such a word
  may treat it as a fault of the block" (30_encoding.md R67, 93_implementation_defined.md I10). Safe: no state that a reset
  leads to holds such a word (log entry 11). -/
  | neverProducedWord (w : OutWord)
deriving DecidableEq, Repr

/-- Why a step has no meaning. -/
inductive Refusal where
  /-- Raised by an arm of exec that has no meaning yet. Safe. No arm of this model is left so. -/
  | notModelled (mnemonic : String)
  /-- Raised by the block's turn with a command at the head of the input, and by a pop, before the first reset: "A model
  refuses every command presented in this state" (70_reset_and_hazards.md R133). Safe (log entry 8). -/
  | beforeReset
  /-- Raised by the block's turn with a command at the head of the input when a unit's fields break the invariants of
  10_state.md R26 or R30: "A model states the invariant as well-formedness and refuses other states"
  (93_implementation_defined.md I11). Safe: unreachable from reset (log entry 9). -/
  | illFormedUnits
deriving DecidableEq, Repr

/-- What a step answers. -/
abbrev Outcome := Host.Outcome State Fault Refusal

/-- The encoder's empty-frame state (10_state.md R38). -/
def EncUnit.empty : EncUnit := { acc := 0, nbits := 0, nsym := 0 }

/-- The decoder's empty-frame state (10_state.md R38). -/
def DecUnit.empty : DecUnit := { acc := 0, nbits := 0, err := false }

/-- An instance that was built and not yet reset (10_state.md R32): `rst_seen` is false and no field holds a value. What
stands in the fields is a placeholder that no step reads (log entry 8). -/
def State.powerOn (cfg : Config) : State where
  cfg := cfg
  enc := EncUnit.empty
  dec := DecUnit.empty
  outq := []
  rstSeen := false
  input := []
  turns := []
  popped := []

/-- The machine right after reset (70_reset_and_hazards.md R131, R134, 10_state.md R37): both units in the empty-frame
state, `OUTQ` empty, `rst_seen` set. Nothing is pushed and no turn is listed. The instance is the default one of
Config.lean (log entries 1 and 2). -/
def State.reset : State where
  cfg := Config.default
  enc := EncUnit.empty
  dec := DecUnit.empty
  outq := []
  rstSeen := true
  input := []
  turns := []
  popped := []

end Sys2Proof.Machine
end

