-- ==== Sys2Proof/Machine/Flags.lean ====
section
/-!
DEFINITION. The block's only flag, `dec_err` (10_state.md R29, R34): how it is set, cleared and reported.
-/
namespace Sys2Proof.Machine

/-- The decoder after an invalid character: `dec_err` is set, `dec_acc` and `dec_nbits` keep their values
(42_decoder.md R95). -/
def markInvalid (d : DecUnit) : DecUnit := { d with err := true }

/-- The code DEC_END reports: `INVALID_SYMBOL` if `dec_err` is set, else `OK` (42_decoder.md R96). -/
def endCode (d : DecUnit) : StatusCode := if d.err then .invalidSymbol else .ok

end Sys2Proof.Machine
end

