-- ==== Sys2Proof/Machine/Operands.lean ====
section
/-!
DEFINITION. What the commands do with their operands before any state changes: the two directions of the alphabet table
(43_alphabet_mapper.md R103), the class of a character, and the bit arithmetic of the two accumulators
(41_encoder.md R87, R91; 42_decoder.md R95, R102).
-/
namespace Sys2Proof.Machine

/-- `ALPHA[v]` (00_scope.md R8). A value is 0..31, so no bounds check is needed (41_encoder.md R91). -/
def symbolOf (cfg : Config) (v : SymVal) : Character := cfg.alpha[v.toNat]'v.isLt

/-- The values 0..31 in order. -/
def symVals : List SymVal := (List.range 32).map (BitVec.ofNat 5)

/-- `INV(c)` (43_alphabet_mapper.md R103): the value whose symbol is `c`, by exact equality of 16-bit codes (R107). -/
def inv (cfg : Config) (c : Character) : Option SymVal :=
  symVals.find? fun v => symbolOf cfg v == c

/-- What a character is to the block (42_decoder.md R95, 43_alphabet_mapper.md R105). -/
inductive CharClass where
  | padding
  | symbol (v : SymVal)
  | invalid
deriving DecidableEq, Repr

/-- The class of a character: `PAD` first, then `INV` (42_decoder.md R95, 43_alphabet_mapper.md R105). -/
def classify (cfg : Config) (c : Character) : CharClass :=
  if c = cfg.pad then .padding
  else match inv cfg c with
    | some v => .symbol v
    | none => .invalid

/-- `(zext_12(acc) << 8) | zext_12(byte)` (41_encoder.md R87). -/
def shiftInByte (acc : BitVec 4) (byte : Byte) : BitVec 12 :=
  (acc.setWidth 12 <<< 8) ||| byte.setWidth 12

/-- `(zext_12(acc) << 5) | zext_12(v)` (42_decoder.md R95). -/
def shiftInSym (acc : BitVec 7) (v : SymVal) : BitVec 12 :=
  (acc.setWidth 12 <<< 5) ||| v.setWidth 12

/-- The loop of 41_encoder.md R87: while `n >= 5`, take the group `(acc >> (n - 5)) & 0x1F` and put `n - 5` for `n`.
Answers the groups in order and the `n` that is left. -/
def takeGroups (acc : BitVec 12) : Nat → List SymVal × Nat
  | n + 5 => ((acc >>> n).setWidth 5 :: (takeGroups acc n).1, (takeGroups acc n).2)
  | n => ([], n)

/-- `acc & (2^n - 1)`: the `n` newest bits (41_encoder.md R87, 42_decoder.md R95). -/
def lowBits (acc : BitVec 12) (n : Nat) : BitVec 12 := acc &&& ((1#12 <<< n) - 1#12)

/-- `(zext_5(acc) << (5 - nbits)) & 0x1F`: the last group of a frame, right-filled with 0 bits (41_encoder.md R88). -/
def fillGroup (acc : BitVec 4) (nbits : BitVec 3) : SymVal := acc.setWidth 5 <<< (5 - nbits.toNat)

/-- `(acc >> (n - 8)) & 0xFF`: the eight oldest of `n` pending bits (42_decoder.md R95, R102). -/
def oldestByte (acc : BitVec 12) (n : Nat) : Byte := (acc >>> (n - 8)).setWidth 8

end Sys2Proof.Machine
end

