-- ==== Sys2Proof/Machine/Ops.lean ====
section
/-!
DEFINITION. The operations the commands and the two agents share: the output words (30_encoding.md R60-R67), `emit`
(00_scope.md R13), `raise` (60_exceptions.md R116), the output budget and acceptance (30_encoding.md R69,
70_reset_and_hazards.md R138), reset (R131) and the host's push and pop (R141).
-/
namespace Sys2Proof.Machine

/-- `SYM(c) = {2'b00, c[15:0]}` (00_scope.md R14, 30_encoding.md R61). -/
def symWord (c : Character) : OutWord := 0#2 ++ c

/-- `BYTE(b) = {2'b01, 8'h00, b[7:0]}` (00_scope.md R14, 30_encoding.md R62). -/
def byteWord (b : Byte) : OutWord := 1#2 ++ 0#8 ++ b

/-- `VAL(x) = {2'b10, x[15:0]}` (00_scope.md R14, 30_encoding.md R63). -/
def valWord (x : BitVec 16) : OutWord := 2#2 ++ x

/-- The 4-bit code of a status (30_encoding.md R65). -/
def statusBits : StatusCode → BitVec 4
  | .ok => 0
  | .invalidSymbol => 1
  | .illegalOpcode => 2
  | .badOperand => 3

/-- `STATUS(op, code) = {2'b11, 8'h00, op[3:0], code[3:0]}` (00_scope.md R14, 30_encoding.md R64). -/
def statusWord (op : Opcode) (code : StatusCode) : OutWord := 3#2 ++ 0#8 ++ op ++ statusBits code

/-- `TAG = W[17:16]` (30_encoding.md R60). -/
def tagOf (w : OutWord) : BitVec 2 := w.extractLsb' 16 2

/-- `V = W[15:0]` (30_encoding.md R60). -/
def valueOf (w : OutWord) : BitVec 16 := w.extractLsb' 0 16

/-- `emit` of each word in order: they enter the tail of `OUTQ` together (00_scope.md R13, 20_memory.md R44). -/
def emitAll (ws : List OutWord) (s : State) : State := { s with outq := s.outq ++ ws }

/-- Write the encoder's fields. -/
def setEnc (e : EncUnit) (s : State) : State := { s with enc := e }

/-- Write the decoder's fields. -/
def setDec (d : DecUnit) (s : State) : State := { s with dec := d }

/-- `raise E(op)` (60_exceptions.md R116): emit `STATUS(op, code(E))`, no other field of the state changes. It stands in
for exception entry: there is no vector, no saved register, no mode, and so nothing to return from (R121). -/
def raiseError (op : Opcode) (code : StatusCode) (s : State) : State := emitAll [statusWord op code] s

/-- `MAXOUT` (30_encoding.md R69). -/
def maxOut : Decoded → Nat
  | .cmd .nop => 0
  | .cmd .encClear => 0
  | .cmd .decClear => 0
  | .cmd (.encByte _) => 2
  | .cmd .encEnd => 9
  | .cmd (.decChar _) => 1
  | .cmd .decEnd => 1
  | .cmd (.mapVal _) => 1
  | .cmd (.mapSym _) => 1
  | .cmd (.stripChar _) => 1
  | .illegal _ => 1
  | .badOperand _ => 1

/-- `OUT_DEPTH - len(OUTQ) >= MAXOUT` (70_reset_and_hazards.md R138), written without subtraction. -/
def hasRoom (s : State) (d : Decoded) : Bool := decide (s.outq.length + maxOut d ≤ s.cfg.outDepth)

/-- `accept(s, C)` (70_reset_and_hazards.md R138). -/
def accept (s : State) (C : CmdWord) : Bool := s.rstSeen && hasRoom s (decodeCmd C)

/-- The encoder invariant of 10_state.md R26: `enc_nbits <= 4 and enc_acc < 2^enc_nbits`. -/
def encWf (e : EncUnit) : Bool := decide (e.nbits.toNat ≤ 4) && decide (e.acc.toNat < 2 ^ e.nbits.toNat)

/-- The decoder invariant of 10_state.md R30: `dec_nbits <= 7 and dec_acc < 2^dec_nbits`. The first half holds of every
3-bit field. -/
def decWf (d : DecUnit) : Bool := decide (d.nbits.toNat ≤ 7) && decide (d.acc.toNat < 2 ^ d.nbits.toNat)

/-- Both units meet their invariants (10_state.md R26, R30). -/
def unitsWf (s : State) : Bool := encWf s.enc && decWf s.dec

/-- Asserting `RST` (70_reset_and_hazards.md R131): the units go to the empty-frame state, `OUTQ` is emptied, `rst_seen` is
set. The configuration is unchanged, and a command at the head of the input is not consumed. -/
def assertReset (s : State) : State :=
  { s with enc := EncUnit.empty, dec := DecUnit.empty, outq := [], rstSeen := true }

/-- The host appends one word to the input stream (70_reset_and_hazards.md R141). -/
def hostPush (C : CmdWord) (s : State) : State := { s with input := s.input ++ [C] }

/-- The `SRC_OP` and `CODE` pairs a STATUS word can carry (30_encoding.md R67). -/
def statusProduced (op : Opcode) : StatusCode → Bool
  | .ok => op == 0x3 || op == 0x6
  | .invalidSymbol => op == 0x6
  | .illegalOpcode => decide (0xA ≤ op)
  | .badOperand => op == 0x0 || op == 0x1 || op == 0x2 || op == 0x3 || op == 0x4 || op == 0x6 || op == 0x7

/-- The status of a 4-bit code; 4..15 are reserved (30_encoding.md R65). -/
def statusOfBits (b : BitVec 4) : Option StatusCode :=
  match b.toNat with
  | 0 => some .ok
  | 1 => some .invalidSymbol
  | 2 => some .illegalOpcode
  | 3 => some .badOperand
  | _ => none

/-- The word a listing form stands for (30_encoding.md R72, R61-R64). -/
def wordOf : Listing → OutWord
  | .sym c => symWord c
  | .byte b => byteWord b
  | .val v => valWord (v.setWidth 16)
  | .valPad => valWord 0x0020
  | .valInvalid => valWord 0x0040
  | .status op code => statusWord op code

/-- A STATUS value read back: `V[15:8]` 0, a code of the table, and a pair that is produced (30_encoding.md R64, R67). -/
def readStatus (V : BitVec 16) : Option Listing :=
  if V.extractLsb' 8 8 = 0 then
    match statusOfBits (V.extractLsb' 0 4) with
    | some code => if statusProduced (V.extractLsb' 4 4) code then some (.status (V.extractLsb' 4 4) code) else none
    | none => none
  else none

/-- A VAL value read back: `0x00..0x1F`, `0x20` or `0x40` (30_encoding.md R63, R67). -/
def readVal (V : BitVec 16) : Option Listing :=
  if V = 0x0020 then some .valPad
  else if V = 0x0040 then some .valInvalid
  else if V.toNat < 32 then some (.val (V.extractLsb' 0 5))
  else none

/-- An output word read back; none for the words the block never produces (30_encoding.md R67). -/
def readWord (w : OutWord) : Option Listing :=
  match (tagOf w).toNat with
  | 0 => some (.sym (valueOf w))
  | 1 => if (valueOf w).extractLsb' 8 8 = 0 then some (.byte ((valueOf w).extractLsb' 0 8)) else none
  | 2 => readVal (valueOf w)
  | _ => readStatus (valueOf w)

/-- The words the block can produce: all but those of 30_encoding.md R67. -/
def producible (w : OutWord) : Bool := (readWord w).isSome

/-- The host takes the head word of `OUTQ` when it is non-empty (70_reset_and_hazards.md R141). Before the first reset the
queue holds no value (10_state.md R32). A word the block never produces is a fault of the block (30_encoding.md R67). -/
def hostPop (s : State) : Outcome :=
  if s.rstSeen then
    match s.outq with
    | [] => .next s
    | w :: ws =>
      if producible w then .next { s with outq := ws, popped := s.popped ++ [w] }
      else .fault (.neverProducedWord w)
  else .refused .beforeReset

end Sys2Proof.Machine
end

