-- ==== Sys2Proof/Machine/Control.lean ====
section
/-!
DEFINITION. The one control command (44_control.md R109).
-/
namespace Sys2Proof.Machine

/-- `NOP` (44_control.md R109): no state change, no output. -/
def execNop (s : State) : Outcome := .next s

end Sys2Proof.Machine
end

