-- ==== Sys2Proof/Machine/Decoder.lean ====
section
/-!
DEFINITION. The `base32_decoder` commands and the padding strip (42_decoder.md R94-R97).
-/
namespace Sys2Proof.Machine

/-- `DEC_CLEAR` (42_decoder.md R94): the three decoder fields become 0, nothing is emitted. -/
def execDecClear (s : State) : Outcome := .next (setDec DecUnit.empty s)

/-- The bytes an alphabet symbol completes: one when 8 bits are pending (42_decoder.md R95, step 5). -/
def decBytes (d : DecUnit) (v : SymVal) : List Byte :=
  if 8 ≤ d.nbits.toNat + 5 then [oldestByte (shiftInSym d.acc v) (d.nbits.toNat + 5)] else []

/-- How many bits stay pending after an alphabet symbol (42_decoder.md R95). -/
def decLeft (d : DecUnit) : Nat :=
  if 8 ≤ d.nbits.toNat + 5 then d.nbits.toNat + 5 - 8 else d.nbits.toNat + 5

/-- The decoder after an alphabet symbol (42_decoder.md R95). -/
def decAfterSym (d : DecUnit) (v : SymVal) : DecUnit where
  acc := (lowBits (shiftInSym d.acc v) (decLeft d)).setWidth 7
  nbits := BitVec.ofNat 3 (decLeft d)
  err := d.err

/-- `DEC_CHAR ch` (42_decoder.md R95): ignored once the frame has failed; padding is skipped; a character outside the
alphabet sets `dec_err`; a symbol adds 5 bits and emits the byte it completes. -/
def execDecChar (ch : Character) (s : State) : Outcome :=
  if s.dec.err then .next s
  else match classify s.cfg ch with
    | .padding => .next s
    | .invalid => .next (setDec (markInvalid s.dec) s)
    | .symbol v => .next (emitAll ((decBytes s.dec v).map byteWord) (setDec (decAfterSym s.dec v) s))

/-- `DEC_END` (42_decoder.md R96): the frame's status; the decoder fields become 0, pending bits dropped unchecked. -/
def execDecEnd (s : State) : Outcome :=
  .next (emitAll [statusWord 0x6 (endCode s.dec)] (setDec DecUnit.empty s))

/-- `STRIP_CHAR ch` (42_decoder.md R97): the character comes through unless it is the padding character. -/
def execStripChar (ch : Character) (s : State) : Outcome :=
  if ch = s.cfg.pad then .next s else .next (emitAll [symWord ch] s)

end Sys2Proof.Machine
end

