-- ==== Sys2Proof/Machine/Encoder.lean ====
section
/-!
DEFINITION. The `base32_encoder` commands (41_encoder.md R86-R88).
-/
namespace Sys2Proof.Machine

/-- `ENC_CLEAR` (41_encoder.md R86): the three encoder fields become 0, nothing is emitted. -/
def execEncClear (s : State) : Outcome := .next (setEnc EncUnit.empty s)

/-- The groups `ENC_BYTE` completes and the count of bits it leaves pending (41_encoder.md R87). -/
def encGroups (e : EncUnit) (byte : Byte) : List SymVal × Nat :=
  takeGroups (shiftInByte e.acc byte) (e.nbits.toNat + 8)

/-- The encoder after `ENC_BYTE` (41_encoder.md R87). `enc_nsym` counts modulo 8. -/
def encAfterByte (e : EncUnit) (byte : Byte) : EncUnit where
  acc := (lowBits (shiftInByte e.acc byte) (encGroups e byte).2).setWidth 4
  nbits := BitVec.ofNat 3 (encGroups e byte).2
  nsym := e.nsym + BitVec.ofNat 3 (encGroups e byte).1.length

/-- `ENC_BYTE byte` (41_encoder.md R87): 8 bits join the stream, every complete group is emitted as its symbol. -/
def execEncByte (byte : Byte) (s : State) : Outcome :=
  .next (emitAll ((encGroups s.enc byte).1.map fun g => symWord (symbolOf s.cfg g))
    (setEnc (encAfterByte s.enc byte) s))

/-- The last group of the frame, if 1 to 4 bits are pending (41_encoder.md R88). -/
def fillWords (cfg : Config) (e : EncUnit) : List OutWord :=
  if 0 < e.nbits.toNat then [symWord (symbolOf cfg (fillGroup e.acc e.nbits))] else []

/-- `nsym` of 41_encoder.md R88: the symbol count modulo 8 with the fill symbol counted in. -/
def endNsym (e : EncUnit) : BitVec 3 := if 0 < e.nbits.toNat then e.nsym + 1 else e.nsym

/-- "append `8 - (n mod 8)` padding symbols" unless `n mod 8` is 0 (41_encoder.md R88). -/
def padWords (cfg : Config) (nsym : BitVec 3) : List OutWord :=
  if nsym ≠ 0 then List.replicate (8 - nsym.toNat) (symWord cfg.pad) else []

/-- `ENC_END` (41_encoder.md R88): fill symbol, padding symbols, `STATUS(0x3, OK)`; the encoder fields become 0. -/
def execEncEnd (s : State) : Outcome :=
  .next (emitAll (fillWords s.cfg s.enc ++ padWords s.cfg (endNsym s.enc) ++ [statusWord 0x3 .ok])
    (setEnc EncUnit.empty s))

end Sys2Proof.Machine
end

