-- ==== Sys2Proof/Machine/Mapper.lean ====
section
/-!
DEFINITION. The alphabet mapper's commands (43_alphabet_mapper.md R104, R105).
-/
namespace Sys2Proof.Machine

/-- `MAP_VAL val` (43_alphabet_mapper.md R104): `emit SYM(ALPHA[val])`. -/
def execMapVal (val : SymVal) (s : State) : Outcome := .next (emitAll [symWord (symbolOf s.cfg val)] s)

/-- The `V` field of `MAP_SYM`'s VAL word: `VALUE` in bits 4..0, `KIND` in bits 6..5 (30_encoding.md R63,
43_alphabet_mapper.md R105). -/
def classBits : CharClass → BitVec 16
  | .padding => 0x0020
  | .symbol v => v.setWidth 16
  | .invalid => 0x0040

/-- `MAP_SYM ch` (43_alphabet_mapper.md R105): the character's class as a VAL word; `dec_err` is not touched. -/
def execMapSym (ch : Character) (s : State) : Outcome :=
  .next (emitAll [valWord (classBits (classify s.cfg ch))] s)

end Sys2Proof.Machine
end

