-- ==== Sys2Proof/Machine/Dispatch.lean ====
section
/-!
DEFINITION. One arm per command: the match of 70_reset_and_hazards.md R132 over the ten commands.
-/
namespace Sys2Proof.Machine

def exec (i : Instr) (s : State) : Host.Outcome State Fault Refusal :=
  match i with
  | .nop => Sys2Proof.Machine.execNop s
  | .encClear => Sys2Proof.Machine.execEncClear s
  | .encByte byte => Sys2Proof.Machine.execEncByte byte s
  | .encEnd => Sys2Proof.Machine.execEncEnd s
  | .decClear => Sys2Proof.Machine.execDecClear s
  | .decChar ch => Sys2Proof.Machine.execDecChar ch s
  | .decEnd => Sys2Proof.Machine.execDecEnd s
  | .mapVal val => Sys2Proof.Machine.execMapVal val s
  | .mapSym ch => Sys2Proof.Machine.execMapSym ch s
  | .stripChar ch => Sys2Proof.Machine.execStripChar ch s

end Sys2Proof.Machine
end

