-- ==== Sys2Proof/Machine/Agents.lean ====
section
/-!
DEFINITION. The two agents of 00_scope.md R6: the block's turn (70_reset_and_hazards.md R131-R139) and the host's
(R141). Step.lean only calls `takeTurn`.
-/
namespace Sys2Proof.Machine

/-- What an accepted command word does (70_reset_and_hazards.md R132): an interface error is raised, a command performed. -/
def perform (d : Decoded) (s : State) : Outcome :=
  match d with
  | .illegal op => .next (raiseError op .illegalOpcode s)
  | .badOperand op => .next (raiseError op .badOperand s)
  | .cmd i => exec i s

/-- The block looks at the head of its input. With no command it is idle (60_exceptions.md R129). Before the first reset
a command is refused (70_reset_and_hazards.md R133), and so is one presented in a state that breaks the units' invariants
(93_implementation_defined.md I11). An accepted command is consumed and performed (R132); one that is not accepted is
held: nothing is consumed and nothing changes (R138, R139). -/
def blockTurn (s : State) : Outcome :=
  match s.input with
  | [] => .next s
  | C :: rest =>
    if s.rstSeen then
      if unitsWf s then
        if accept s C then perform (decodeCmd C) { s with input := rest } else .next s
      else .refused .illFormedUnits
    else .refused .beforeReset

/-- One turn of the block or of the host (70_reset_and_hazards.md R141). -/
def doTurn (t : Turn) (s : State) : Outcome :=
  match t with
  | .block => blockTurn s
  | .push C => .next (hostPush C s)
  | .pop => hostPop s
  | .reset => .next (assertReset s)

/-- The next turn of the schedule; with none listed, the block's (log entry 3). -/
def takeTurn (s : State) : Outcome :=
  match s.turns with
  | [] => doTurn .block s
  | t :: ts => doTurn t { s with turns := ts }

/-- The system with a command word put at the head of the block's input and the block's turn next. -/
def presentWord (C : CmdWord) (s : State) : State :=
  { s with input := C :: s.input, turns := .block :: s.turns }

end Sys2Proof.Machine
end

