-- ==== Sys2Proof/Machine/Step.lean ====
section
/-!
DEFINITION. One step of the two-agent system, and how the opcode table's words are presented to it.
-/
namespace Sys2Proof.Machine

/-- One step: the next turn is taken (70_reset_and_hazards.md R132, R141). -/
def step (s : State) : Host.Outcome State Fault Refusal := takeTurn s

/-- The block fetches nothing (10_state.md R20): a command comes from the head of the input stream. So the word is put
there, with the block's turn next (log entry 4). -/
def State.withFetchWord (s : State) (nbits w : Nat) : State := presentWord (tableWord nbits w) s

end Sys2Proof.Machine
end

