-- ==== Sys2Proof/Machine/Assembler.lean ====
section
/-!
DEFINITION. The assembler (30_encoding.md R70, R71): what a line expands to, how a line is written, and the listing text
of an output word (R72). Notation only: no meaning of a command rests on it (92_eei_decisions.md D27). What the spec leaves
open of the text (blanks) is log entry 14.
-/
namespace Sys2Proof.Machine

/-- The commands of an `ENCODE`: one ENC_BYTE a code, then ENC_END (30_encoding.md R71). -/
def encodeCmds (codes : List Nat) : List CmdWord :=
  codes.map (fun n => encode (.encByte (BitVec.ofNat 8 n))) ++ [encode .encEnd]

/-- The command words of a line whose operands are in range (30_encoding.md R70, R71). -/
def expand : AsmLine → List CmdWord
  | .nop => [encode .nop]
  | .encClear => [encode .encClear]
  | .encByte n => [encode (.encByte (BitVec.ofNat 8 n))]
  | .encEnd => [encode .encEnd]
  | .decClear => [encode .decClear]
  | .decChar n => [encode (.decChar (BitVec.ofNat 16 n))]
  | .decEnd => [encode .decEnd]
  | .mapVal n => [encode (.mapVal (BitVec.ofNat 5 n))]
  | .mapSym n => [encode (.mapSym (BitVec.ofNat 16 n))]
  | .stripChar n => [encode (.stripChar (BitVec.ofNat 16 n))]
  | .word n => [BitVec.ofNat 20 n]
  | .encodeBytes codes => encodeCmds codes
  | .encodeText codes => encodeCmds codes
  | .decodeText codes => codes.map (fun n => encode (.decChar (BitVec.ofNat 16 n))) ++ [encode .decEnd]
  | .stripText codes => codes.map fun n => encode (.stripChar (BitVec.ofNat 16 n))
  | .abortEnc => [encode .encClear]
  | .abortDec => [encode .decClear]

/-- The assembler refuses a line with an operand out of range (30_encoding.md R70). -/
def assemble (l : AsmLine) : Option (List CmdWord) := if l.wf then some (expand l) else none

/-- The value of a hex digit. -/
def hexDigit? (c : Char) : Option Nat :=
  if '0' ≤ c ∧ c ≤ '9' then some (c.toNat - '0'.toNat)
  else if 'a' ≤ c ∧ c ≤ 'f' then some (c.toNat - 'a'.toNat + 10)
  else if 'A' ≤ c ∧ c ≤ 'F' then some (c.toNat - 'A'.toNat + 10)
  else none

/-- A number in base `b`, most significant digit first; none if it has no digit or one that is not of the base. -/
def digits? (b : Nat) (cs : List Char) : Option Nat :=
  if cs = [] then none
  else cs.foldl (fun a c => do
    let n ← a
    let d ← hexDigit? c
    if d < b then some (n * b + d) else none) (some 0)

/-- "decimal or 0x hex" (30_encoding.md R70). -/
def number? : List Char → Option Nat
  | '0' :: 'x' :: cs => digits? 16 cs
  | cs => digits? 10 cs

/-- `0x` hex only, as `.word` takes it (30_encoding.md R70). -/
def hex? : List Char → Option Nat
  | '0' :: 'x' :: cs => digits? 16 cs
  | _ => none

/-- Blanks between the parts of a line (log entry 14). -/
def isBlank (c : Char) : Bool := c == ' ' || c == '\t'

/-- Leading blanks dropped. -/
def skipBlanks (cs : List Char) : List Char := cs.dropWhile isBlank

/-- What follows an operand: blanks, and a comment from `;` on (30_encoding.md R70). -/
def lineEnd (cs : List Char) : Bool :=
  match skipBlanks cs with
  | [] => true
  | c :: _ => c == ';'

/-- The operand's characters up to a blank or a comment, if nothing but those follows. -/
def bareOperand? (cs : List Char) : Option (List Char) :=
  let tok := cs.takeWhile fun c => !(isBlank c || c == ';')
  if lineEnd (cs.drop tok.length) then some tok else none

/-- `<char>`: `'X'` (one character) or a hex code (30_encoding.md R70). -/
def charOperand? : List Char → Option Nat
  | '\'' :: x :: '\'' :: rest => if lineEnd rest then some x.toNat else none
  | cs => bareOperand? cs >>= hex?

/-- The codes of a string in double quotes (30_encoding.md R71). -/
def stringOperand? : List Char → Option (List Nat)
  | '"' :: cs =>
    let body := cs.takeWhile (· != '"')
    match cs.drop body.length with
    | '"' :: rest => if lineEnd rest then some (body.map Char.toNat) else none
    | _ => none
  | _ => none

/-- One element of a list: a number and nothing else, with blanks around it (30_encoding.md R70, R71, log entry 14). -/
def listElement? (cs : List Char) : Option Nat :=
  let elem := skipBlanks cs
  let tok := elem.takeWhile fun c => !isBlank c
  if (elem.drop tok.length).all isBlank then number? tok else none

/-- `[b0, b1, ..., bk-1]` (30_encoding.md R71). -/
def listOperand? : List Char → Option (List Nat)
  | '[' :: cs =>
    let body := cs.takeWhile (· != ']')
    match cs.drop body.length with
    | ']' :: rest =>
      if lineEnd rest then
        if body.all isBlank then some []
        else (body.splitOn ',').mapM listElement?
      else none
    | _ => none
  | _ => none

/-- A line without an operand. -/
def plainLine (l : AsmLine) (rest : List Char) : Option AsmLine := if lineEnd rest then some l else none

/-- The characters of one line of assembler source read (30_encoding.md R70, R71); none if it is no line of that form.
DESIGN CHOICE: MAP_VAL's operand is read in decimal or `0x` hex, as `<byte>` is; the spec gives `<val>` the range 0..31 and
no base (log entry 14). -/
def parseChars (src : List Char) : Option AsmLine :=
  let cs := skipBlanks src
  let name := cs.takeWhile fun c => !(isBlank c || c == ';')
  let rest := skipBlanks (cs.drop name.length)
  if name = ['N', 'O', 'P'] then plainLine .nop rest
  else if name = ['E', 'N', 'C', '_', 'C', 'L', 'E', 'A', 'R'] then plainLine .encClear rest
  else if name = ['E', 'N', 'C', '_', 'B', 'Y', 'T', 'E'] then (bareOperand? rest >>= number?).map .encByte
  else if name = ['E', 'N', 'C', '_', 'E', 'N', 'D'] then plainLine .encEnd rest
  else if name = ['D', 'E', 'C', '_', 'C', 'L', 'E', 'A', 'R'] then plainLine .decClear rest
  else if name = ['D', 'E', 'C', '_', 'C', 'H', 'A', 'R'] then (charOperand? rest).map .decChar
  else if name = ['D', 'E', 'C', '_', 'E', 'N', 'D'] then plainLine .decEnd rest
  else if name = ['M', 'A', 'P', '_', 'V', 'A', 'L'] then (bareOperand? rest >>= number?).map .mapVal
  else if name = ['M', 'A', 'P', '_', 'S', 'Y', 'M'] then (charOperand? rest).map .mapSym
  else if name = ['S', 'T', 'R', 'I', 'P', '_', 'C', 'H', 'A', 'R'] then (charOperand? rest).map .stripChar
  else if name = ['.', 'w', 'o', 'r', 'd'] then (bareOperand? rest >>= hex?).map .word
  else if name = ['E', 'N', 'C', 'O', 'D', 'E'] then
    match rest with
    | '[' :: _ => (listOperand? rest).map .encodeBytes
    | _ => (stringOperand? rest).map .encodeText
  else if name = ['D', 'E', 'C', 'O', 'D', 'E'] then (stringOperand? rest).map .decodeText
  else if name = ['S', 'T', 'R', 'I', 'P'] then (stringOperand? rest).map .stripText
  else if name = ['A', 'B', 'O', 'R', 'T', '_', 'E', 'N', 'C'] then plainLine .abortEnc rest
  else if name = ['A', 'B', 'O', 'R', 'T', '_', 'D', 'E', 'C'] then plainLine .abortDec rest
  else none

/-- One line of assembler source read. -/
def parseLine (src : String) : Option AsmLine := parseChars src.toList

/-- A line of source to command words: read, checked and expanded (30_encoding.md R70, R71). -/
def assembleLine (src : String) : Option (List CmdWord) := parseLine src >>= assemble

/-- One hex digit. -/
def hexChar (n : Nat) : Char := if n < 10 then Char.ofNat ('0'.toNat + n) else Char.ofNat ('A'.toNat + (n - 10))

/-- `k` hex digits of `n`, most significant first. -/
def hexText (k n : Nat) : String := String.ofList ((List.range k).map fun i => hexChar (n / 16 ^ (k - 1 - i) % 16))

/-- The name of an opcode in a listing: its mnemonic, or its hex digit if it is reserved (30_encoding.md R72, R73). -/
def opText (op : Opcode) : String :=
  match opcodeRows.find? fun r => r.op == op with
  | some r => r.mnemonic
  | none => "0x" ++ hexText 1 op.toNat

/-- The name of a status code (30_encoding.md R65). -/
def codeText : StatusCode → String
  | .ok => "OK"
  | .invalidSymbol => "INVALID_SYMBOL"
  | .illegalOpcode => "ILLEGAL_OPCODE"
  | .badOperand => "BAD_OPERAND"

/-- The listing text of an output word (30_encoding.md R72); a SYM word in its `SYM 0xhhhh` form. -/
def listingText : Listing → String
  | .sym c => "SYM 0x" ++ hexText 4 c.toNat
  | .byte b => "BYTE 0x" ++ hexText 2 b.toNat
  | .val v => "VAL " ++ String.ofList (Nat.toDigits 10 v.toNat)
  | .valPad => "VAL PAD"
  | .valInvalid => "VAL INVALID"
  | .status op code => "STATUS " ++ opText op ++ " " ++ codeText code

/-- The hex form of an output word: the full word in 5 hex digits (30_encoding.md R72). -/
def listingHex (w : OutWord) : String := "0x" ++ hexText 5 w.toNat

end Sys2Proof.Machine
end

