-- ==== Sys2Proof/Machine/Reference.lean ====
section
/-!
DEFINITION. The frame-level reference functions `ENCODE` and `DECODE` (40_reference_functions.md R75-R82), over bit
sequences in the notation of 00_scope.md R12. The per-command rules are required to give the same results (R83, R84).
-/
namespace Sys2Proof.Machine

/-- `bits8(b)` and `bits5(v)` (00_scope.md R12): the bits of a value, most significant first. -/
def bitsOf {n : Nat} (v : BitVec n) : List Bool := (List.range n).map v.getMsbD

/-- `num(bs)` (00_scope.md R12): the unsigned value of a bit sequence read most significant first. -/
def num (bs : List Bool) : Nat := bs.foldl (fun a b => 2 * a + b.toNat) 0

/-- Item `i` of a stream cut into consecutive groups of `k` bits, left to right. -/
def groupAt (k : Nat) (bits : List Bool) (i : Nat) : Nat := num ((bits.drop (k * i)).take k)

/-- Step 1 of `ENCODE` (R76): the bit stream of the bytes. -/
def byteStream (bytes : List Byte) : List Bool := bytes.flatMap bitsOf

/-- `g := ceil(len(S) / 5)` (R77). -/
def groupCount (len : Nat) : Nat := (len + 4) / 5

/-- Step 2 of `ENCODE` (R77): the last group is filled with 0 bits, then the stream is cut into groups of 5. -/
def encodeGroups (S : List Bool) : List SymVal :=
  (List.range (groupCount S.length)).map fun i =>
    BitVec.ofNat 5 (groupAt 5 (S ++ List.replicate (5 * groupCount S.length - S.length) false) i)

/-- Step 4 of `ENCODE` (R79): padding symbols up to a multiple of 8. -/
def padText (cfg : Config) (syms : List Character) : List Character :=
  if syms.length % 8 = 0 then syms else syms ++ List.replicate (8 - syms.length % 8) cfg.pad

/-- `ENCODE(bytes)` (R75-R79). -/
def refEncode (cfg : Config) (bytes : List Byte) : List Character :=
  padText cfg ((encodeGroups (byteStream bytes)).map (symbolOf cfg))

/-- The result of `DECODE`: `Ok(bytes) | DecodeError` (R81). `DecodeError` carries nothing (93_implementation_defined.md
I14). -/
inductive DecodeResult where
  | ok (bytes : List Byte)
  | decodeError
deriving DecidableEq, Repr

/-- Step 1 of `DECODE` (R81): the padding characters are removed wherever they occur, order kept. -/
def stripPad (cfg : Config) (text : List Character) : List Character := text.filter fun c => c != cfg.pad

/-- Step 3 of `DECODE` (R82): the bit stream of the symbols' values. -/
def symStream (vals : List SymVal) : List Bool := vals.flatMap bitsOf

/-- Steps 4 and 5 of `DECODE` (R82): the stream is truncated to a multiple of 8 bits and cut into bytes. -/
def decodeBytes (S : List Bool) : List Byte :=
  (List.range (S.length / 8)).map fun i => BitVec.ofNat 8 (groupAt 8 S i)

/-- `DECODE(text)` (R81, R82). -/
def refDecode (cfg : Config) (text : List Character) : DecodeResult :=
  if (stripPad cfg text).any fun c => (inv cfg c).isNone then .decodeError
  else .ok (decodeBytes (symStream ((stripPad cfg text).filterMap (inv cfg))))

end Sys2Proof.Machine
end

