-- ==== Sys2Proof/Machine/Frames.lean ====
section
/-!
DEFINITION. Commands performed in order, what each emits, and how the host reads a frame's result from that
(20_memory.md R46, 70_reset_and_hazards.md R142).
-/
namespace Sys2Proof.Machine

/-- The words one command puts into `OUTQ`: what follows the words that were there (20_memory.md R44, R46). -/
def emittedBy (C : CmdWord) (s : State) : List OutWord :=
  match perform (decodeCmd C) s with
  | .next t => t.outq.drop s.outq.length
  | .fault _ => []
  | .refused _ => []

/-- Command words performed one after another (20_memory.md R48), whatever room `OUTQ` has. -/
def performWords : List CmdWord → State → Outcome
  | [], s => .next s
  | C :: rest, s =>
    match perform (decodeCmd C) s with
    | .next t => performWords rest t
    | .fault r => .fault r
    | .refused r => .refused r

/-- One entry of what the host knows of a run: a command it sent with the words that command emitted, or a reset. -/
inductive TraceEntry where
  | cmd (C : CmdWord) (out : List OutWord)
  | reset
deriving DecidableEq, Repr

/-- The words of an entry. -/
def TraceEntry.words : TraceEntry → List OutWord
  | .cmd _ out => out
  | .reset => []

/-- The trace of command words performed in order: "The host attributes output words to commands by order" (R142). -/
def traceOf : List CmdWord → State → List TraceEntry
  | [], _ => []
  | C :: rest, s =>
    .cmd C (emittedBy C s) ::
      match perform (decodeCmd C) s with
      | .next t => traceOf rest t
      | .fault _ => []
      | .refused _ => []

/-- The characters of the SYM words among `ws` (30_encoding.md R61). -/
def symsIn (ws : List OutWord) : List Character := (ws.filter fun w => tagOf w == 0).map valueOf

/-- The bytes of the BYTE words among `ws` (30_encoding.md R62). -/
def bytesIn (ws : List OutWord) : List Byte :=
  (ws.filter fun w => tagOf w == 1).map fun w => (valueOf w).extractLsb' 0 8

/-- What the host has of an open encoder frame: its SYM words so far, and whether a byte was rejected. -/
structure EncReader where
  syms : List Character
  lost : Bool
deriving DecidableEq, Repr

/-- The start of an encoder frame. -/
def EncReader.fresh : EncReader := { syms := [], lost := false }

/-- The result of an encoder frame the host ended (70_reset_and_hazards.md R142). -/
inductive EncResult where
  /-- The encoded text. -/
  | text (syms : List Character)
  /-- The frame lost a byte, and the host must treat it as failed (41_encoder.md R92). -/
  | failed
deriving DecidableEq, Repr

/-- The encoder frames' results (70_reset_and_hazards.md R142). ENC_CLEAR and reset abandon a frame without a result; a
rejected ENC_BYTE makes the frame failed; a rejected ENC_END leaves it open; other commands belong to no encoder frame. -/
def encFrames : EncReader → List TraceEntry → List EncResult
  | _, [] => []
  | _, .reset :: es => encFrames .fresh es
  | r, .cmd C out :: es =>
    match (opOf C).toNat with
    | 0x1 => encFrames (if out = [] then .fresh else r) es
    | 0x2 =>
      if out = [statusWord 0x2 .badOperand] then encFrames { r with lost := true } es
      else encFrames { r with syms := r.syms ++ symsIn out } es
    | 0x3 =>
      if out.getLast? = some (statusWord 0x3 .ok) then
        (if r.lost then .failed else .text (r.syms ++ symsIn out)) :: encFrames .fresh es
      else encFrames r es
    | _ => encFrames r es

/-- The decoder frames' results (70_reset_and_hazards.md R142), from the bytes of the open frame so far. The bytes count
only if DEC_END gave `OK`: they are dropped on `INVALID_SYMBOL`, on DEC_CLEAR and on reset. -/
def decFrames : List Byte → List TraceEntry → List DecodeResult
  | _, [] => []
  | _, .reset :: es => decFrames [] es
  | bs, .cmd C out :: es =>
    match (opOf C).toNat with
    | 0x4 => decFrames (if out = [] then [] else bs) es
    | 0x5 => decFrames (bs ++ bytesIn out) es
    | 0x6 =>
      if out = [statusWord 0x6 .ok] then .ok bs :: decFrames [] es
      else if out = [statusWord 0x6 .invalidSymbol] then .decodeError :: decFrames [] es
      else decFrames bs es
    | _ => decFrames bs es

/-- The commands of the encoder unit (10_state.md R36). -/
def isEncCmd : Instr → Bool
  | .encClear => true
  | .encByte _ => true
  | .encEnd => true
  | .nop => false
  | .decClear => false
  | .decChar _ => false
  | .decEnd => false
  | .mapVal _ => false
  | .mapSym _ => false
  | .stripChar _ => false

/-- The commands of the decoder unit's frames (10_state.md R36). `STRIP_CHAR` belongs to no frame. -/
def isDecCmd : Instr → Bool
  | .decClear => true
  | .decChar _ => true
  | .decEnd => true
  | .nop => false
  | .encClear => false
  | .encByte _ => false
  | .encEnd => false
  | .mapVal _ => false
  | .mapSym _ => false
  | .stripChar _ => false

/-- The words emitted by the commands of `is` that `keep` picks, when all of `is` are performed in order from `s`. -/
def wordsOf (keep : Instr → Bool) : List Instr → State → List OutWord
  | [], _ => []
  | i :: is, s =>
    (if keep i then emittedBy (encode i) s else []) ++
      match exec i s with
      | .next t => wordsOf keep is t
      | .fault _ => []
      | .refused _ => []

end Sys2Proof.Machine
end

