-- ==== Sys2Proof/Machine/Instances.lean ====
section
/-!
DEFINITION. Several instances side by side (60_exceptions.md R128): one configuration for all of them, and for each its own
state and command stream. They share nothing mutable and do not communicate, and have no identifiers; the numbers below are
places in a list, the model's own (log entry 17).
-/
namespace Sys2Proof.Machine

/-- What one instance has for itself: every field of `State` but the configuration (60_exceptions.md R128: "each with its
own state and command stream"). -/
structure OwnState where
  enc : EncUnit
  dec : DecUnit
  outq : List OutWord
  rstSeen : Bool
  input : List CmdWord
  turns : List Turn
  popped : List OutWord
deriving DecidableEq, Repr

/-- Several instances: "the same configuration" once (60_exceptions.md R128), and what each has for itself. -/
structure Instances where
  cfg : Config
  own : List OwnState
deriving DecidableEq, Repr

/-- What an instance has for itself. -/
def State.ownPart (s : State) : OwnState where
  enc := s.enc
  dec := s.dec
  outq := s.outq
  rstSeen := s.rstSeen
  input := s.input
  turns := s.turns
  popped := s.popped

/-- The whole state of an instance that has `o` for itself and is built with `cfg`. -/
def OwnState.withConfig (o : OwnState) (cfg : Config) : State where
  cfg := cfg
  enc := o.enc
  dec := o.dec
  outq := o.outq
  rstSeen := o.rstSeen
  input := o.input
  turns := o.turns
  popped := o.popped

/-- The state of the instance at place `k`, if there is one. -/
def Instances.stateAt (sys : Instances) (k : Nat) : Option State := sys.own[k]?.map fun o => o.withConfig sys.cfg

/-- One step of the instance at place `k`: its own machine's step, which leaves the shared configuration (10_state.md R22).
A place without an instance changes nothing, and a fault or a refusal of the instance is that of the system: both DESIGN
CHOICE (log entry 17). -/
def stepInstance (k : Nat) (sys : Instances) : Host.Outcome Instances Fault Refusal :=
  match sys.stateAt k with
  | none => .next sys
  | some s =>
    match step s with
    | .next t => .next { sys with own := sys.own.set k t.ownPart }
    | .fault r => .fault r
    | .refused r => .refused r

/-- Steps of several instances one after another, in the order of the places listed; each instance runs at its own pace
(log entry 17). -/
def stepInstances : List Nat → Instances → Host.Outcome Instances Fault Refusal
  | [], sys => .next sys
  | k :: ks, sys =>
    match stepInstance k sys with
    | .next sys' => stepInstances ks sys'
    | .fault r => .fault r
    | .refused r => .refused r

end Sys2Proof.Machine
end

