-- ==== Sys2Proof/Safety.lean ====
section
/-!
DEFINITION. What a safe run is: the invariant of reachable states, the states in which the block holds, and the end of a
run (70_reset_and_hazards.md R143).
-/
namespace Sys2Proof

/-- What every state a reset leads to satisfies: both units' invariants (10_state.md R26, R30), the bound on `OUTQ`
(R31), and no word in it that the block never produces (30_encoding.md R67). -/
def StateInv (s : Machine.State) : Bool :=
  Machine.unitsWf s && decide (s.outq.length ≤ s.cfg.outDepth) && s.outq.all Machine.producible

/-- The encoder states that occur between commands (41_encoder.md R89): `enc_nbits` and `enc_nsym` by `k mod 5`. -/
def EncPaced (e : Machine.EncUnit) : Bool :=
  (e.nbits == 0 && e.nsym == 0) || (e.nbits == 3 && e.nsym == 1) || (e.nbits == 1 && e.nsym == 3) ||
    (e.nbits == 4 && e.nsym == 4) || (e.nbits == 2 && e.nsym == 6)

/-- The block holds: a command is at the head of the input and is not accepted (70_reset_and_hazards.md R138). -/
def Holds (s : Machine.State) : Bool :=
  match s.input with
  | [] => false
  | C :: _ => s.rstSeen && !Machine.accept s C

/-- A run is finished (70_reset_and_hazards.md R143): every pushed command is accepted, `OUTQ` is empty, both units are in
the empty-frame state. A frame that was ended by its END leaves its unit so (10_state.md R38). -/
def Finished (s : Machine.State) : Bool :=
  s.rstSeen && s.input.isEmpty && s.outq.isEmpty && s.enc == Machine.EncUnit.empty && s.dec == Machine.DecUnit.empty

/-- The next step ends in no fault and no refusal. -/
def StepSafe (s : Machine.State) : Bool :=
  match Machine.step s with
  | .next _ => true
  | .fault _ => false
  | .refused _ => false

/-- The words a schedule pushes, in order. -/
def pushedBy : List Machine.Turn → List CmdWord
  | [] => []
  | .push C :: ts => C :: pushedBy ts
  | .block :: ts => pushedBy ts
  | .pop :: ts => pushedBy ts
  | .reset :: ts => pushedBy ts

/-- `n` steps of the machine (Host.Core.run). -/
def runFor (n : Nat) (s : Machine.State) : Machine.Outcome := Host.Core.run core n s

end Sys2Proof
end

