-- ==== Sys2Proof/Certificates/Slice0/Obligations.lean ====
section
/-!
DEFINITION. The statements for the provers, from the numbered rules of spec/. Each docstring names the rule it formalises.
A state is arbitrary unless a hypothesis limits it; `StateInv`, `encWf` and `decWf` rule out states no reset leads to.
-/

open Sys2Proof Sys2Proof.Machine

/-! ### Encodings -/

/-- A few words of 30_encoding.md R73 decode as listed there. -/
def Obligations.SampleWordsDecode : Prop :=
  decodeCmd 0x00000 = .cmd .nop ∧ decodeCmd 0x10000 = .cmd .encClear ∧
  decodeCmd 0x20066 = .cmd (.encByte 0x66) ∧ decodeCmd 0x30000 = .cmd .encEnd ∧
  decodeCmd 0x5004D = .cmd (.decChar 0x4D) ∧ decodeCmd 0x60000 = .cmd .decEnd ∧
  decodeCmd 0x7001F = .cmd (.mapVal 31) ∧ decodeCmd 0x80037 = .cmd (.mapSym 0x37) ∧
  decodeCmd 0x9003D = .cmd (.stripChar 0x3D) ∧ decodeCmd 0xA0000 = .illegal 0xA ∧
  decodeCmd 0x20166 = .badOperand 0x2

/-- 00_scope.md R14: the fields of a command word and of an output word, and the four output-word constructors, as
numbers of 20 and 18 bits. -/
def Obligations.OutputWordConstructors : Prop :=
  (∀ C : CmdWord, C.toNat = 0x10000 * (opOf C).toNat + (dataOf C).toNat) ∧
  (∀ w : OutWord, w.toNat = 0x10000 * (tagOf w).toNat + (valueOf w).toNat) ∧
  (∀ c : Character, (symWord c).toNat = c.toNat) ∧
  (∀ b : Byte, (byteWord b).toNat = 0x10000 + b.toNat) ∧
  (∀ x : BitVec 16, (valWord x).toNat = 0x20000 + x.toNat) ∧
  (∀ (op : Opcode) (code : StatusCode),
    (statusWord op code).toNat = 0x30000 + 16 * op.toNat + (statusBits code).toNat) ∧
  statusBits .ok = 0 ∧ statusBits .invalidSymbol = 1 ∧ statusBits .illegalOpcode = 2 ∧ statusBits .badOperand = 3

/-- Decoding undoes encoding for every command and every operand. -/
def Obligations.DecodeUndoesEncode : Prop :=
  ∀ i : Instr, decodeCmd (encode i) = .cmd i

/-- A command word that decodes to a command is that command's only word: no bit of a legal word is dropped. -/
def Obligations.EncodeUndoesDecode : Prop :=
  ∀ (C : CmdWord) (i : Instr), decodeCmd C = .cmd i → encode i = C

/-- 30_encoding.md R58: at most one row spells a word; the words of a row are exactly the legal words of its command; a
word of opcode 0x0..0x9 that no row spells is `BAD_OPERAND`, one of opcode 0xA..0xF is `ILLEGAL_OPCODE`. -/
def Obligations.OpcodeMapRowsDecideEveryWord : Prop :=
  (opcodeRows.map fun r => (r.op.toNat, r.mnemonic, r.fixedBits.toNat, r.mask.toNat)) =
    [(0, "NOP", 0x00000, 0xFFFFF), (1, "ENC_CLEAR", 0x10000, 0xFFFFF), (2, "ENC_BYTE", 0x20000, 0xFFF00),
     (3, "ENC_END", 0x30000, 0xFFFFF), (4, "DEC_CLEAR", 0x40000, 0xFFFFF), (5, "DEC_CHAR", 0x50000, 0xF0000),
     (6, "DEC_END", 0x60000, 0xFFFFF), (7, "MAP_VAL", 0x70000, 0xFFFE0), (8, "MAP_SYM", 0x80000, 0xF0000),
     (9, "STRIP_CHAR", 0x90000, 0xF0000)] ∧
  ∀ C : CmdWord,
    (∀ r₁ ∈ opcodeRows, ∀ r₂ ∈ opcodeRows, r₁.spells C = true → r₂.spells C = true → r₁ = r₂) ∧
    (∀ r ∈ opcodeRows, r.spells C = true → ∃ i, decodeCmd C = .cmd i ∧ mnemonicOf i = r.mnemonic) ∧
    (∀ i, decodeCmd C = .cmd i → ∃ r ∈ opcodeRows, r.spells C = true ∧ r.mnemonic = mnemonicOf i) ∧
    ((opOf C).toNat ≤ 9 → (∀ r ∈ opcodeRows, r.spells C = false) → decodeCmd C = .badOperand (opOf C)) ∧
    (10 ≤ (opOf C).toNat → decodeCmd C = .illegal (opOf C))

/-- 30_encoding.md R59: decoding is the function written there. -/
def Obligations.DecodingIsTheSpecsFunction : Prop :=
  ∀ C : CmdWord, decodeCmd C =
    (let op := C.extractLsb' 16 4
     let D := C.extractLsb' 0 16
     if 0xA ≤ op then Decoded.illegal op
     else if (op = 0x0 ∨ op = 0x1 ∨ op = 0x3 ∨ op = 0x4 ∨ op = 0x6) ∧ D ≠ 0 then .badOperand op
     else if op = 0x2 ∧ D.extractLsb' 8 8 ≠ 0 then .badOperand op
     else if op = 0x7 ∧ D.extractLsb' 5 11 ≠ 0 then .badOperand op
     else if op = 0x2 then .cmd (.encByte (D.extractLsb' 0 8))
     else if op = 0x7 then .cmd (.mapVal (D.extractLsb' 0 5))
     else if op = 0x5 then .cmd (.decChar D)
     else if op = 0x8 then .cmd (.mapSym D)
     else if op = 0x9 then .cmd (.stripChar D)
     else if op = 0x0 then .cmd .nop
     else if op = 0x1 then .cmd .encClear
     else if op = 0x3 then .cmd .encEnd
     else if op = 0x4 then .cmd .decClear
     else .cmd .decEnd)

/-- 60_exceptions.md R113, 44_control.md R110: exactly the words with `OP >= 0xA` give `ILLEGAL_OPCODE`, whatever `D` is:
one STATUS word with the opcode, and no other field changes. -/
def Obligations.ReservedOpcodesReportIllegal : Prop :=
  ∀ C : CmdWord,
    ((∃ op, decodeCmd C = .illegal op) ↔ 0xA ≤ (opOf C).toNat) ∧
    (0xA ≤ (opOf C).toNat → ∀ s : State,
      perform (decodeCmd C) s = .next { s with outq := s.outq ++ [statusWord (opOf C) .illegalOpcode] })

/-- 60_exceptions.md R114: exactly the words with `OP <= 0x9` that set a bit their form reserves give `BAD_OPERAND`: one
STATUS word with the opcode, and no other field changes. -/
def Obligations.ReservedOperandBitsReportBadOperand : Prop :=
  ∀ C : CmdWord,
    ((∃ op, decodeCmd C = .badOperand op) ↔
      ((opOf C).toNat ∈ [0, 1, 3, 4, 6] ∧ dataOf C ≠ 0) ∨
      ((opOf C).toNat = 2 ∧ 256 ≤ (dataOf C).toNat) ∨
      ((opOf C).toNat = 7 ∧ 32 ≤ (dataOf C).toNat)) ∧
    ((∃ op, decodeCmd C = .badOperand op) → ∀ s : State,
      perform (decodeCmd C) s = .next { s with outq := s.outq ++ [statusWord (opOf C) .badOperand] })

/-- 30_encoding.md R67, R72: an output word read back is the word of its listing form, and every form the block can
produce is read back as itself; the words that are not read back are those R67 lists, and no command emits one. -/
def Obligations.ListingReadsWordsBack : Prop :=
  (∀ w l, readWord w = some l → wordOf l = w) ∧
  (∀ l, (∀ op code, l = .status op code → statusProduced op code = true) → readWord (wordOf l) = some l) ∧
  (∀ w, producible w = false ↔
    (tagOf w = 1 ∧ 256 ≤ (valueOf w).toNat) ∨
    (tagOf w = 2 ∧ 0x20 < (valueOf w).toNat ∧ (valueOf w).toNat ≠ 0x40) ∨
    (tagOf w = 3 ∧ ¬ ∃ op code, w = statusWord op code ∧ statusProduced op code = true)) ∧
  (∀ (op : Opcode) (code : StatusCode), statusProduced op code = true ↔
    (op.toNat = 3 ∧ code ∈ [.ok, .badOperand]) ∨
    (op.toNat = 6 ∧ code ∈ [.ok, .invalidSymbol, .badOperand]) ∨
    (op.toNat ∈ [0, 1, 2, 4, 7] ∧ code = .badOperand) ∨ (0xA ≤ op.toNat ∧ code = .illegalOpcode)) ∧
  (∀ (C : CmdWord) (s : State) (w : OutWord), w ∈ emittedBy C s → producible w = true)

/-- 30_encoding.md R71: the pseudo-instructions expand as listed; R70: a line is refused exactly when it is ill formed. -/
def Obligations.AssemblerExpandsPseudoInstructions : Prop :=
  (∀ l, assemble l = none ↔ l.wf = false) ∧
  (∀ bytes : List Byte, assemble (.encodeBytes (bytes.map BitVec.toNat)) =
    some (bytes.map (fun b => encode (.encByte b)) ++ [encode .encEnd])) ∧
  (∀ bytes : List Byte, assemble (.encodeText (bytes.map BitVec.toNat)) =
    some (bytes.map (fun b => encode (.encByte b)) ++ [encode .encEnd])) ∧
  (∀ codes : List Nat, assemble (.encodeText codes) = none ↔ ∃ n ∈ codes, 0xFF < n) ∧
  (∀ text : List Character, assemble (.decodeText (text.map BitVec.toNat)) =
    some (text.map (fun c => encode (.decChar c)) ++ [encode .decEnd])) ∧
  (∀ text : List Character, assemble (.stripText (text.map BitVec.toNat)) =
    some (text.map fun c => encode (.stripChar c))) ∧
  assemble .abortEnc = some [encode .encClear] ∧ assemble .abortDec = some [encode .decClear]

/-! ### The step, acceptance, reset and the host -/

/-- 70_reset_and_hazards.md R132, 60_exceptions.md R116: an accepted word is consumed and performed by the block's turn:
a command has its effect, an error emits one STATUS word and changes nothing else. The turn may be listed or be the one of
an empty schedule (the schedule is the model's, log entry 3). -/
def Obligations.StepPerformsTheHeadWord : Prop :=
  ∀ (s : State) (C : CmdWord) (rest : List CmdWord) (ts : List Turn),
    s.rstSeen = true → unitsWf s = true → s.input = C :: rest → accept s C = true →
    (s.turns = .block :: ts ∨ (s.turns = [] ∧ ts = [])) →
    (∀ i, decodeCmd C = .cmd i → step s = exec i { s with input := rest, turns := ts }) ∧
    (∀ op, decodeCmd C = .illegal op → step s = .next
      { s with input := rest, turns := ts, outq := s.outq ++ [statusWord op .illegalOpcode] }) ∧
    (∀ op, decodeCmd C = .badOperand op → step s = .next
      { s with input := rest, turns := ts, outq := s.outq ++ [statusWord op .badOperand] })

/-- The same for a word of the opcode table presented with `withFetchWord` (log entry 4). -/
def Obligations.StepPerformsThePresentedTableWord : Prop :=
  ∀ (s : State) (nbits w : Nat) (i : Instr),
    s.rstSeen = true → unitsWf s = true → decodeTableWord nbits w = some i → hasRoom s (.cmd i) = true →
    step (s.withFetchWord nbits w) = exec i s

/-- 70_reset_and_hazards.md R138: acceptance is room for `MAXOUT` after the first reset; a command that is not accepted
leaves everything as it is (but for the schedule's turn, log entry 5); every command is accepted once `OUTQ` is empty; the
queue alone changes acceptance, so only a pop or a reset lifts the hold. -/
def Obligations.HoldUntilThereIsRoom : Prop :=
  (∀ (s : State) (C : CmdWord), accept s C = true ↔
    s.rstSeen = true ∧ (s.cfg.outDepth : Int) - s.outq.length ≥ maxOut (decodeCmd C)) ∧
  (∀ (s : State) (C : CmdWord) (rest : List CmdWord),
    s.rstSeen = true → unitsWf s = true → s.input = C :: rest → accept s C = false →
    (s.turns = [] → step s = .next s) ∧
    (∀ ts, s.turns = .block :: ts → step s = .next { s with turns := ts }) ∧
    (∀ D ts t, s.turns = .push D :: ts → step s = .next t → accept t C = false)) ∧
  (∀ (s : State) (C : CmdWord), s.rstSeen = true → s.outq = [] → accept s C = true)

/-- 70_reset_and_hazards.md R133: before the first reset every command presented is refused. When a command is presented
is read off the schedule, which is the model's (log entries 3, 8). -/
def Obligations.CommandsBeforeResetAreRefused : Prop :=
  ∀ (s : State) (C : CmdWord) (rest : List CmdWord),
    s.rstSeen = false → s.input = C :: rest →
    (s.turns = [] ∨ ∃ ts, s.turns = .block :: ts) → step s = .refused .beforeReset

/-- 93_implementation_defined.md I11, 10_state.md R26, R30: after reset, a command presented on the block's turn in a state
that breaks the accumulator invariants is refused. When a command is presented is read off the schedule, which is the
model's: the turn is listed or is that of an empty schedule (log entry 3). That the refusal comes when a command is
presented is the model's reading (log entry 9, DEDUCED). -/
def Obligations.IllFormedUnitsAreRefused : Prop :=
  ∀ (s : State) (C : CmdWord) (rest : List CmdWord),
    s.rstSeen = true → s.input = C :: rest →
    (s.turns = [] ∨ ∃ ts, s.turns = .block :: ts) →
    (4 < s.enc.nbits.toNat ∨ 2 ^ s.enc.nbits.toNat ≤ s.enc.acc.toNat ∨ 2 ^ s.dec.nbits.toNat ≤ s.dec.acc.toNat) →
    step s = .refused .illFormedUnits

/-- 70_reset_and_hazards.md R131: reset clears the units and `OUTQ` and sets `rst_seen`, all at once, from any state and
before a waiting command; the configuration and the input stream stay. That a reset is one turn, and what it leaves of the
schedule and of the popped words, is the model's choice (log entry 12). -/
def Obligations.ResetClearsUnitsAndQueue : Prop :=
  ∀ (s : State) (ts : List Turn), s.turns = .reset :: ts →
    step s = .next { cfg := s.cfg, enc := { acc := 0, nbits := 0, nsym := 0 },
                     dec := { acc := 0, nbits := 0, err := false }, outq := [], rstSeen := true,
                     input := s.input, turns := ts, popped := s.popped }

/-- 70_reset_and_hazards.md R134, 10_state.md R37: the state after reset. That nothing is pushed is the model's choice
(log entry 4), and the instance is the default one (log entries 1, 2). -/
def Obligations.StateAfterReset : Prop :=
  State.reset.enc = { acc := 0, nbits := 0, nsym := 0 } ∧ State.reset.dec = { acc := 0, nbits := 0, err := false } ∧
  State.reset.outq = [] ∧ State.reset.rstSeen = true ∧ State.reset.cfg = Config.default ∧
  assertReset (State.powerOn Config.default) = State.reset

/-- 70_reset_and_hazards.md R141: what a push and a pop do, and that a pop takes the head word and nothing else. A popped
word that the block never produces is a fault (93_implementation_defined.md I10, log entry 11); a pop of an empty queue is
the model's choice (log entry 7). -/
def Obligations.HostPushesAndPops : Prop :=
  ∀ (s : State) (ts : List Turn),
    (∀ C, s.turns = .push C :: ts → step s = .next { s with turns := ts, input := s.input ++ [C] }) ∧
    (s.turns = .pop :: ts → s.rstSeen = true →
      (s.outq = [] → step s = .next { s with turns := ts }) ∧
      (∀ w ws, s.outq = w :: ws → producible w = true →
        step s = .next { s with turns := ts, outq := ws, popped := s.popped ++ [w] }) ∧
      (∀ w ws, s.outq = w :: ws → producible w = false → step s = .fault (.neverProducedWord w)))

/-- 30_encoding.md R69: `MAXOUT` bounds what a command emits in every state that meets the encoder invariant, and each
bound is reached. -/
def Obligations.OutputBudgetIsTheMaximum : Prop :=
  (∀ (C : CmdWord) (s : State), encWf s.enc = true → (emittedBy C s).length ≤ maxOut (decodeCmd C)) ∧
  (∀ byte ch val op,
    maxOut (.cmd .nop) = 0 ∧ maxOut (.cmd .encClear) = 0 ∧ maxOut (.cmd .decClear) = 0 ∧
    maxOut (.cmd (.encByte byte)) = 2 ∧ maxOut (.cmd .encEnd) = 9 ∧ maxOut (.cmd (.decChar ch)) = 1 ∧
    maxOut (.cmd .decEnd) = 1 ∧ maxOut (.cmd (.mapVal val)) = 1 ∧ maxOut (.cmd (.mapSym ch)) = 1 ∧
    maxOut (.cmd (.stripChar ch)) = 1 ∧ maxOut (.illegal op) = 1 ∧ maxOut (.badOperand op) = 1) ∧
  (∀ byte, ∃ s, encWf s.enc = true ∧ (emittedBy (encode (.encByte byte)) s).length = 2) ∧
  (∃ s, encWf s.enc = true ∧ (emittedBy (encode .encEnd) s).length = 9) ∧
  (∃ s ch, encWf s.enc = true ∧ decWf s.dec = true ∧ (emittedBy (encode (.decChar ch)) s).length = 1) ∧
  (∀ s, (emittedBy (encode .decEnd) s).length = 1) ∧
  (∀ s val, (emittedBy (encode (.mapVal val)) s).length = 1) ∧
  (∀ s ch, (emittedBy (encode (.mapSym ch)) s).length = 1) ∧
  (∃ s ch, (emittedBy (encode (.stripChar ch)) s).length = 1) ∧
  (∀ C s op, decodeCmd C = .illegal op → (emittedBy C s).length = 1) ∧
  (∀ C s op, decodeCmd C = .badOperand op → (emittedBy C s).length = 1)

/-- 44_control.md R111: every one of the 2^20 command words has a defined outcome, in every state. -/
def Obligations.EveryWordCompletes : Prop :=
  ∀ (C : CmdWord) (s : State), ∃ t, perform (decodeCmd C) s = .next t

/-! ### What each command does -/

/-- 44_control.md R109: NOP's word, its effect, its error, and that it needs no room. -/
def Obligations.NopDoesNothing : Prop :=
  decodeCmd 0x00000 = .cmd .nop ∧ (∀ s, exec .nop s = .next s) ∧
  (∀ D : BitVec 16, D ≠ 0 → decodeCmd (cmdWord 0x0 D) = .badOperand 0x0) ∧
  (∀ s, s.rstSeen = true → s.outq.length = s.cfg.outDepth → accept s 0x00000 = true)

/-- 41_encoder.md R86: ENC_CLEAR's word, its effect and its error. -/
def Obligations.EncClearEmptiesTheEncoder : Prop :=
  decodeCmd 0x10000 = .cmd .encClear ∧
  (∀ s, exec .encClear s = .next { s with enc := { acc := 0, nbits := 0, nsym := 0 } }) ∧
  (∀ D : BitVec 16, D ≠ 0 → decodeCmd (cmdWord 0x1 D) = .badOperand 0x1)

/-- 41_encoder.md R87: ENC_BYTE in unsigned arithmetic. With `a = enc_acc * 256 + byte` and `n = enc_nbits + 8` pending
bits, it emits the symbol of the five oldest bits, and of the next five if 10 or more were pending; the rest stays pending. -/
def Obligations.EncByteEmitsEveryCompleteGroup : Prop :=
  (∀ byte : Byte, decodeCmd (0x20000 ||| byte.setWidth 20) = .cmd (.encByte byte)) ∧
  (∀ D : BitVec 16, D.extractLsb' 8 8 ≠ 0 → decodeCmd (cmdWord 0x2 D) = .badOperand 0x2) ∧
  (∀ (s : State) (byte : Byte), encWf s.enc = true →
    let a := s.enc.acc.toNat * 256 + byte.toNat
    let n := s.enc.nbits.toNat + 8
    exec (.encByte byte) s = .next
      (if n < 10 then
        { s with
          enc := { acc := BitVec.ofNat 4 (a % 2 ^ (n - 5)), nbits := BitVec.ofNat 3 (n - 5), nsym := s.enc.nsym + 1 }
          outq := s.outq ++ [symWord (symbolOf s.cfg (BitVec.ofNat 5 (a / 2 ^ (n - 5))))] }
      else
        { s with
          enc := { acc := BitVec.ofNat 4 (a % 2 ^ (n - 10)), nbits := BitVec.ofNat 3 (n - 10), nsym := s.enc.nsym + 2 }
          outq := s.outq ++ [symWord (symbolOf s.cfg (BitVec.ofNat 5 (a / 2 ^ (n - 5)))),
                             symWord (symbolOf s.cfg (BitVec.ofNat 5 (a / 2 ^ (n - 10) % 32)))] }))

/-- 41_encoder.md R88: ENC_END in unsigned arithmetic: the pending bits filled with zeros on the right, padding up to a
multiple of 8 symbols, `STATUS(0x3, OK)`; the encoder fields become 0. -/
def Obligations.EncEndFillsPadsAndReports : Prop :=
  decodeCmd 0x30000 = .cmd .encEnd ∧
  (∀ D : BitVec 16, D ≠ 0 → decodeCmd (cmdWord 0x3 D) = .badOperand 0x3) ∧
  (∀ s : State, encWf s.enc = true →
    let k := s.enc.nbits.toNat
    let fill := if k = 0 then [] else [symWord (symbolOf s.cfg (BitVec.ofNat 5 (s.enc.acc.toNat * 2 ^ (5 - k))))]
    let m := (s.enc.nsym.toNat + fill.length) % 8
    exec .encEnd s = .next { s with
      enc := { acc := 0, nbits := 0, nsym := 0 }
      outq := s.outq ++ (fill ++ List.replicate ((8 - m) % 8) (symWord s.cfg.pad) ++ [statusWord 0x3 .ok]) })

/-- 42_decoder.md R94: DEC_CLEAR's word, its effect and its error. -/
def Obligations.DecClearEmptiesTheDecoder : Prop :=
  decodeCmd 0x40000 = .cmd .decClear ∧
  (∀ s, exec .decClear s = .next { s with dec := { acc := 0, nbits := 0, err := false } }) ∧
  (∀ D : BitVec 16, D ≠ 0 → decodeCmd (cmdWord 0x4 D) = .badOperand 0x4)

/-- 42_decoder.md R95: DEC_CHAR in unsigned arithmetic: nothing once `dec_err` is set; nothing for `PAD`; `dec_err` set for
a character outside the alphabet; else 5 bits join the stream and a byte leaves it when 8 are pending. With the default
table, lower case, `0`, `1`, `8`, `9`, space, newline and every code above 0x7F are outside the alphabet. -/
def Obligations.DecCharSkipsMarksOrEmits : Prop :=
  (∀ ch : Character, decodeCmd (0x50000 ||| ch.setWidth 20) = .cmd (.decChar ch)) ∧
  (∀ (s : State) (ch : Character),
    (s.dec.err = true → exec (.decChar ch) s = .next s) ∧
    (s.dec.err = false → ch = s.cfg.pad → exec (.decChar ch) s = .next s) ∧
    (s.dec.err = false → ch ≠ s.cfg.pad → inv s.cfg ch = none →
      exec (.decChar ch) s = .next { s with dec := { s.dec with err := true } }) ∧
    (∀ v, s.dec.err = false → decWf s.dec = true → inv s.cfg ch = some v →
      let a := s.dec.acc.toNat * 32 + v.toNat
      let n := s.dec.nbits.toNat + 5
      exec (.decChar ch) s = .next
        (if 8 ≤ n then
          { s with
            dec := { acc := BitVec.ofNat 7 (a % 2 ^ (n - 8)), nbits := BitVec.ofNat 3 (n - 8), err := false }
            outq := s.outq ++ [byteWord (BitVec.ofNat 8 (a / 2 ^ (n - 8)))] }
        else
          { s with dec := { acc := BitVec.ofNat 7 a, nbits := BitVec.ofNat 3 n, err := false } }))) ∧
  (∀ c : Character, (0x61 ≤ c.toNat ∧ c.toNat ≤ 0x7A) ∨ c.toNat ∈ [0x30, 0x31, 0x38, 0x39, 0x20, 0x0A] ∨ 0x7F < c.toNat →
    c ≠ Config.default.pad ∧ inv Config.default c = none)

/-- 42_decoder.md R96: DEC_END's word, its report, that the pending bits are dropped unchecked, and its error. -/
def Obligations.DecEndReportsTheFrame : Prop :=
  decodeCmd 0x60000 = .cmd .decEnd ∧
  (∀ D : BitVec 16, D ≠ 0 → decodeCmd (cmdWord 0x6 D) = .badOperand 0x6) ∧
  (∀ s, exec .decEnd s = .next { s with
    dec := { acc := 0, nbits := 0, err := false }
    outq := s.outq ++ [statusWord 0x6 (if s.dec.err = true then .invalidSymbol else .ok)] })

/-- 42_decoder.md R97: STRIP_CHAR's word and effect, and that `STRIP` of a text emits it without its padding characters. -/
def Obligations.StripCharDropsOnlyPadding : Prop :=
  (∀ ch : Character, decodeCmd (0x90000 ||| ch.setWidth 20) = .cmd (.stripChar ch)) ∧
  (∀ s ch, exec (.stripChar ch) s =
    .next (if ch = s.cfg.pad then s else { s with outq := s.outq ++ [symWord ch] })) ∧
  (∀ (s : State) (text : List Character),
    performWords (text.map fun c => encode (.stripChar c)) s =
      .next { s with outq := s.outq ++ (text.filter fun c => c != s.cfg.pad).map symWord })

/-- 43_alphabet_mapper.md R104: MAP_VAL's word, effect and error; no value maps to `PAD`. -/
def Obligations.MapValGivesTheSymbol : Prop :=
  (∀ val : SymVal, decodeCmd (0x70000 ||| val.setWidth 20) = .cmd (.mapVal val)) ∧
  (∀ D : BitVec 16, D.extractLsb' 5 11 ≠ 0 → decodeCmd (cmdWord 0x7 D) = .badOperand 0x7) ∧
  (∀ s val, exec (.mapVal val) s = .next { s with outq := s.outq ++ [symWord s.cfg.alpha[val.toFin]] }) ∧
  (∀ (cfg : Config) (val : SymVal), cfg.alpha[val.toFin] ≠ cfg.pad) ∧
  Config.default.alpha[0] = 0x41 ∧ Config.default.alpha[25] = 0x5A ∧ Config.default.alpha[26] = 0x32 ∧
  Config.default.alpha[31] = 0x37

/-- 43_alphabet_mapper.md R105: MAP_SYM's word and its three results; no state but `OUTQ` changes. -/
def Obligations.MapSymClassifiesACharacter : Prop :=
  (∀ ch : Character, decodeCmd (0x80000 ||| ch.setWidth 20) = .cmd (.mapSym ch)) ∧
  (∀ s : State, exec (.mapSym s.cfg.pad) s = .next { s with outq := s.outq ++ [valWord 0x0020] }) ∧
  (∀ (s : State) (val : SymVal), exec (.mapSym s.cfg.alpha[val.toFin]) s =
    .next { s with outq := s.outq ++ [valWord (val.setWidth 16)] }) ∧
  (∀ (s : State) (ch : Character), ch ≠ s.cfg.pad → (∀ val : SymVal, s.cfg.alpha[val.toFin] ≠ ch) →
    exec (.mapSym ch) s = .next { s with outq := s.outq ++ [valWord 0x0040] }) ∧
  Config.default.pad = 0x3D ∧ (∀ val : SymVal, Config.default.alpha[val.toFin] ≠ 0x61)

/-! ### Frames: what stays unchanged -/

/-- 10_state.md R36, 41_encoder.md R85: an encoder command leaves everything but the encoder and `OUTQ`, and in `OUTQ`
every word that was there. -/
def Obligations.EncoderCommandsLeaveTheRest : Prop :=
  ∀ (i : Instr) (s t : State), (i = .encClear ∨ i = .encEnd ∨ ∃ b, i = .encByte b) → exec i s = .next t →
    t.dec = s.dec ∧ t.cfg = s.cfg ∧ t.rstSeen = s.rstSeen ∧ t.input = s.input ∧ t.turns = s.turns ∧
    t.popped = s.popped ∧ s.outq <+: t.outq ∧ (i = .encClear → t.outq = s.outq)

/-- 10_state.md R36: a decoder command leaves everything but the decoder and `OUTQ`, and in `OUTQ` every word that was
there; DEC_CLEAR emits nothing. -/
def Obligations.DecoderCommandsLeaveTheRest : Prop :=
  ∀ (i : Instr) (s t : State), (i = .decClear ∨ i = .decEnd ∨ ∃ c, i = .decChar c) → exec i s = .next t →
    t.enc = s.enc ∧ t.cfg = s.cfg ∧ t.rstSeen = s.rstSeen ∧ t.input = s.input ∧ t.turns = s.turns ∧
    t.popped = s.popped ∧ s.outq <+: t.outq ∧ (i = .decClear → t.outq = s.outq)

/-- 20_memory.md R45, 10_state.md R36: NOP, MAP_VAL, MAP_SYM and STRIP_CHAR leave everything but `OUTQ`, and in `OUTQ`
every word that was there. -/
def Obligations.MapperStripAndNopLeaveTheUnits : Prop :=
  ∀ (i : Instr) (s t : State),
    (i = .nop ∨ (∃ v, i = .mapVal v) ∨ (∃ c, i = .mapSym c) ∨ ∃ c, i = .stripChar c) → exec i s = .next t →
    t = { s with outq := t.outq } ∧ s.outq <+: t.outq ∧ (i = .nop → t.outq = s.outq)

/-- 10_state.md R22: no step of the block or the host changes the configuration; R32, 70_reset_and_hazards.md R131:
`rst_seen` never goes back to false. That the host's popped words are a field of State, and that no turn takes one back, a
reset turn among them, is the model's choice (log entries 3, 12). -/
def Obligations.ConfigurationIsNeverWritten : Prop :=
  ∀ s t : State, step s = .next t →
    t.cfg = s.cfg ∧ (s.rstSeen = true → t.rstSeen = true) ∧ s.popped <+: t.popped

/-- 43_alphabet_mapper.md R108: over every step of the machine, `dec_err` goes from 0 to 1 only by the DEC_CHAR of a
character outside the alphabet and not `PAD`; `INVALID_SYMBOL` comes only from DEC_END of a failed frame; MAP_SYM reports a
failed lookup as its result. -/
def Obligations.InvalidSymbolHasOneSource : Prop :=
  (∀ s t : State, step s = .next t → s.dec.err = false → t.dec.err = true →
    ∃ ch rest, s.input = encode (.decChar ch) :: rest ∧ ch ≠ s.cfg.pad ∧ inv s.cfg ch = none) ∧
  (∀ (s : State) (C : CmdWord) (op : Opcode), statusWord op .invalidSymbol ∈ emittedBy C s →
    C = encode .decEnd ∧ op = 0x6 ∧ s.dec.err = true) ∧
  (∀ (s t : State) (ch : Character), ch ≠ s.cfg.pad → inv s.cfg ch = none → exec (.mapSym ch) s = .next t →
    t.outq = s.outq ++ [valWord 0x0040] ∧ t.dec = s.dec) ∧
  (∀ (s t : State) (C : CmdWord) (op : Opcode), decodeCmd C = .illegal op ∨ decodeCmd C = .badOperand op →
    perform (decodeCmd C) s = .next t → t.dec = s.dec)

/-! ### The alphabet table -/

/-- 00_scope.md R9, 43_alphabet_mapper.md R103, R106, R107: the default table in closed form; `INV` by exact equality for
every valid table; that it and the table are exact inverses; its closed form for the default table, and the 33 codes the
default accepts. -/
def Obligations.InverseMapAndAcceptedCodes : Prop :=
  (∀ v : SymVal, (symbolOf Config.default v).toNat = if v.toNat < 26 then 0x41 + v.toNat else 0x32 + (v.toNat - 26)) ∧
  Config.default.pad = 0x003D ∧ Config.default.toConfigData.valid = true ∧
  (∀ (cfg : Config) (c : Character) (v : SymVal), inv cfg c = some v ↔ cfg.alpha[v.toFin] = c) ∧
  (∀ (cfg : Config) (v : SymVal), inv cfg (symbolOf cfg v) = some v) ∧
  (∀ (cfg : Config) (c : Character) (v : SymVal), inv cfg c = some v → symbolOf cfg v = c) ∧
  (∀ c : Character, inv Config.default c =
    if 0x41 ≤ c.toNat ∧ c.toNat ≤ 0x5A then some (BitVec.ofNat 5 (c.toNat - 0x41))
    else if 0x32 ≤ c.toNat ∧ c.toNat ≤ 0x37 then some (BitVec.ofNat 5 (c.toNat - 0x32 + 26))
    else none) ∧
  (∀ c : Character, classify Config.default c ≠ .invalid ↔
    (0x41 ≤ c.toNat ∧ c.toNat ≤ 0x5A) ∨ (0x32 ≤ c.toNat ∧ c.toNat ≤ 0x37) ∨ c.toNat = 0x3D)

/-! ### Invariants of the machine -/

/-- The invariant holds in the state after reset. -/
def Obligations.InvariantAtReset : Prop := StateInv State.reset = true ∧ EncPaced State.reset.enc = true

/-- Every step of the block and of the host keeps the invariant: the accumulators (10_state.md R26, R30), the bound on
`OUTQ` (R31), and that no word in it is one the block never produces (30_encoding.md R67). -/
def Obligations.EveryStepKeepsTheInvariant : Prop :=
  ∀ s t : State, StateInv s = true → step s = .next t → StateInv t = true

/-- 10_state.md R26, R30: in every state reached from a reset of any instance, whatever is pushed and whoever's turn it
is, both units' invariants hold. -/
def Obligations.ReachableUnitsMeetTheirInvariants : Prop :=
  ∀ (s t : State) (n : Nat), runFor n (assertReset s) = .next t →
    t.enc.nbits.toNat ≤ 4 ∧ t.enc.acc.toNat < 2 ^ t.enc.nbits.toNat ∧
    t.dec.nbits.toNat ≤ 7 ∧ t.dec.acc.toNat < 2 ^ t.dec.nbits.toNat

/-- 41_encoder.md R89: only the five encoder states of its table occur between commands, and in them ENC_END emits at most
8 words. -/
def Obligations.EncoderKeepsItsPace : Prop :=
  (∀ s t : State, StateInv s = true → EncPaced s.enc = true → step s = .next t → EncPaced t.enc = true) ∧
  (∀ s : State, encWf s.enc = true → EncPaced s.enc = true → (emittedBy (encode .encEnd) s).length ≤ 8)

/-- 60_exceptions.md R122, R130, 44_control.md R111: after a reset no step ends in a fault or a refusal. For an accepted
command and for a push and a reset this rests on those rules. That a hold, an idle turn of the block and a pop of an empty
queue answer a next state too is the model's (log entries 5, 6, 7), and so is what a turn is (log entry 3). -/
def Obligations.NoStepStopsAfterReset : Prop :=
  ∀ s : State, StateInv s = true → s.rstSeen = true → ∃ t, step s = .next t

/-- 70_reset_and_hazards.md R138, R145: with the queue popped empty and one turn of the block, the head command is taken;
nothing popped is lost. The schedule is the model's (log entry 3). -/
def Obligations.PoppingLetsTheHeadCommandThrough : Prop :=
  ∀ (s : State) (C : CmdWord) (rest : List CmdWord) (ts : List Turn),
    StateInv s = true → s.rstSeen = true → s.input = C :: rest →
    s.turns = List.replicate s.outq.length .pop ++ .block :: ts →
    ∃ t, runFor (s.outq.length + 1) s = .next t ∧ t.input = rest ∧ t.turns = ts ∧ t.popped = s.popped ++ s.outq

/-! ### Order and determinism -/

/-- 20_memory.md R46: performed in order, the commands' words stand in `OUTQ` behind those that were there, in command
order, each command's words together. -/
def Obligations.OutputsStandInCommandOrder : Prop :=
  ∀ (Cs : List CmdWord) (s : State), ∃ t, performWords Cs s = .next t ∧
    t.outq = s.outq ++ (traceOf Cs s).flatMap TraceEntry.words ∧ (traceOf Cs s).length = Cs.length

/-- 20_memory.md R46, R48, R54: whatever the schedule of turns, as long as it holds no reset: the words popped and queued
are those of the consumed commands performed in order, the units are as those commands leave them, and what was pushed and
not consumed is still in the input, in order. The schedule, and what a hold, an idle turn and a pop of an empty queue leave, is
the model's (log entries 3, 5, 6, 7). -/
def Obligations.EveryScheduleGivesTheSameWords : Prop :=
  ∀ (s t : State) (n : Nat), .reset ∉ s.turns.take n → runFor n s = .next t →
    ∃ (consumed : List CmdWord) (r : State),
      s.input ++ pushedBy (s.turns.take n) = consumed ++ t.input ∧ performWords consumed s = .next r ∧
      t.enc = r.enc ∧ t.dec = r.dec ∧ t.popped ++ t.outq = s.popped ++ r.outq

/-- 20_memory.md R54: what the commands emit depends on `ALPHA`, `PAD`, the units and the commands alone: not on
`OUT_DEPTH`, the queue or anything of the host. -/
def Obligations.EmittedWordsDependOnTableUnitsAndCommands : Prop :=
  ∀ (Cs : List CmdWord) (s₁ s₂ : State),
    s₁.cfg.alpha = s₂.cfg.alpha → s₁.cfg.pad = s₂.cfg.pad → s₁.enc = s₂.enc → s₁.dec = s₂.dec →
    traceOf Cs s₁ = traceOf Cs s₂

/-- 10_state.md R36: an encoder frame and a decoder frame interleaved command by command give the outputs they give alone,
and neither unit's fields are written by the other's commands. -/
def Obligations.UnitsAreIndependent : Prop :=
  ∀ (is : List Instr) (s : State),
    wordsOf isEncCmd is s = wordsOf isEncCmd (is.filter isEncCmd) s ∧
    wordsOf isDecCmd is s = wordsOf isDecCmd (is.filter isDecCmd) s ∧
    ∃ t e d, performWords (is.map encode) s = .next t ∧
      performWords ((is.filter isEncCmd).map encode) s = .next e ∧
      performWords ((is.filter isDecCmd).map encode) s = .next d ∧ t.enc = e.enc ∧ t.dec = d.dec

/-- 60_exceptions.md R128: instances with the same configuration, each with its own state and stream. A step of one is the
step of its own machine, leaves the configuration, and leaves every other instance as it is; and in any interleaving of
their steps each instance comes to the state that as many steps of it alone give. That several instances are a list, of
which one takes a step at a time, is the model's, and so are the two clauses that a fault or a refusal of one instance is
the outcome of the whole system: R128 does not say what becomes of the others then (log entry 17, DESIGN CHOICE). -/
def Obligations.InstancesDoNotDisturbEachOther : Prop :=
  (∀ (k : Nat) (sys : Instances) (s : State), sys.stateAt k = some s →
    s.cfg = sys.cfg ∧
    (∀ t, step s = .next t → ∃ sys', stepInstance k sys = .next sys' ∧ sys'.cfg = sys.cfg ∧
      sys'.stateAt k = some t ∧ (∀ j, j ≠ k → sys'.stateAt j = sys.stateAt j) ∧
      sys'.own.length = sys.own.length) ∧
    (∀ r, step s = .fault r → stepInstance k sys = .fault r) ∧
    (∀ r, step s = .refused r → stepInstance k sys = .refused r)) ∧
  (∀ (ks : List Nat) (sys sys' : Instances) (k : Nat) (s : State),
    stepInstances ks sys = .next sys' → sys.stateAt k = some s →
    ∃ t, runFor (ks.count k) s = .next t ∧ sys'.stateAt k = some t)

/-! ### Whole frames -/

/-- 41_encoder.md R89: after `k` bytes of a frame the encoder is as its table says, and what ENC_END then emits. -/
def Obligations.EncoderStateAfterBytes : Prop :=
  ∀ (s : State) (bytes : List Byte), s.enc = EncUnit.empty →
    ∃ t, performWords (bytes.map fun b => encode (.encByte b)) s = .next t ∧
      let k := bytes.length
      let r := k % 5
      t.enc.nbits.toNat = (8 * k) % 5 ∧ t.enc.nsym.toNat = (8 * k / 5) % 8 ∧ t.enc.nsym.toNat = 8 * r / 5 ∧
      (r, t.enc.nbits.toNat, t.enc.nsym.toNat, (emittedBy (encode .encEnd) t).length,
        ((emittedBy (encode .encEnd) t).filter fun w => w == symWord s.cfg.pad).length) ∈
        [(0, 0, 0, 1, 0), (1, 3, 1, 8, 6), (2, 1, 3, 6, 4), (3, 4, 4, 5, 3), (4, 2, 6, 3, 1)]

/-- 40_reference_functions.md R83: an encoder frame, interleaved with any commands of other units, emits exactly `ENCODE`
of its bytes and then `STATUS(0x3, OK)`; the encoder is empty again; at every point its symbols are the first ones of the
whole text. -/
def Obligations.EncoderFrameGivesEncode : Prop :=
  ∀ (s : State) (is : List Instr) (bytes : List Byte), s.enc = EncUnit.empty →
    is.filter isEncCmd = bytes.map Instr.encByte ++ [.encEnd] →
    (∃ t, performWords (is.map encode) s = .next t ∧ t.enc = EncUnit.empty) ∧
    symsIn (wordsOf isEncCmd is s) = refEncode s.cfg bytes ∧
    (wordsOf isEncCmd is s).getLast? = some (statusWord 0x3 .ok) ∧
    ∀ k, symsIn (wordsOf isEncCmd (is.take k) s) <+: refEncode s.cfg bytes

/-- 40_reference_functions.md R84: a decoder frame, interleaved with any commands of other units, emits the bytes of
`DECODE` and `STATUS(0x6, OK)`; or, if `DECODE` fails, the bytes of the text before its first invalid character and
`STATUS(0x6, INVALID_SYMBOL)`. Either way the decoder is empty again. -/
def Obligations.DecoderFrameGivesDecode : Prop :=
  ∀ (s : State) (is : List Instr) (text : List Character), s.dec = DecUnit.empty →
    is.filter isDecCmd = text.map Instr.decChar ++ [.decEnd] →
    (∃ t, performWords (is.map encode) s = .next t ∧ t.dec = DecUnit.empty) ∧
    (∀ bs, refDecode s.cfg text = .ok bs →
      bytesIn (wordsOf isDecCmd is s) = bs ∧ (wordsOf isDecCmd is s).getLast? = some (statusWord 0x6 .ok)) ∧
    (refDecode s.cfg text = .decodeError →
      ∃ e c bs, text[e]? = some c ∧ c ≠ s.cfg.pad ∧ inv s.cfg c = none ∧
        refDecode s.cfg (text.take e) = .ok bs ∧ bytesIn (wordsOf isDecCmd is s) = bs ∧
        (wordsOf isDecCmd is s).getLast? = some (statusWord 0x6 .invalidSymbol))

/-- 40_reference_functions.md R82: the round-trip law of the reference functions, for every valid configuration. -/
def Obligations.DecodeUndoesEncodeOfText : Prop :=
  ∀ (cfg : Config) (bytes : List Byte), refDecode cfg (refEncode cfg bytes) = .ok bytes

/-- 95_test_vectors.md V-P1: the block's round trip: the symbols an encoder frame emits, given to a decoder frame, come
back as the bytes, then `STATUS(0x6, OK)`. -/
def Obligations.BlockRoundTrip : Prop :=
  ∀ (s : State) (bytes : List Byte), s.enc = EncUnit.empty → s.dec = DecUnit.empty →
    let syms := symsIn (wordsOf isEncCmd (bytes.map Instr.encByte ++ [.encEnd]) s)
    wordsOf isDecCmd (syms.map Instr.decChar ++ [.decEnd]) s = bytes.map byteWord ++ [statusWord 0x6 .ok]

/-- 40_reference_functions.md R80: the length of `ENCODE`, and how much of it is padding. -/
def Obligations.EncodedLengthAndPadding : Prop :=
  ∀ (cfg : Config) (bytes : List Byte),
    let k := bytes.length
    let text := refEncode cfg bytes
    text.length = 8 * (((8 * k + 4) / 5 + 7) / 8) ∧ (bytes = [] → text = []) ∧
    (encodeGroups (byteStream bytes)).length = (8 * k + 4) / 5 ∧
    (k % 5, (text.filter fun c => c == cfg.pad).length) ∈ [(0, 0), (1, 6), (2, 4), (3, 3), (4, 1)] ∧
    (k % 5, (text.filter fun c => c != cfg.pad).length) ∈
      [(0, 8 * (k / 5)), (1, 8 * (k / 5) + 2), (2, 8 * (k / 5) + 4), (3, 8 * (k / 5) + 5), (4, 8 * (k / 5) + 7)]

/-- 40_reference_functions.md R81, 42_decoder.md R100: `DECODE` fails exactly when the text holds a character that is
neither padding nor in the alphabet; nothing else of a text is rejected. -/
def Obligations.DecodeFailsOnlyOnForeignCharacters : Prop :=
  ∀ (cfg : Config) (text : List Character),
    refDecode cfg text = .decodeError ↔ ∃ c ∈ text, c ≠ cfg.pad ∧ inv cfg c = none

/-- 42_decoder.md R98: the byte rhythm of a frame without error, whatever padding it holds. -/
def Obligations.DecoderByteRhythm : Prop :=
  (∀ (s : State) (text : List Character), s.dec = DecUnit.empty →
    (∀ c ∈ text, c = s.cfg.pad ∨ inv s.cfg c ≠ none) →
    ∃ t, performWords (text.map fun c => encode (.decChar c)) s = .next t ∧
      let j := (stripPad s.cfg text).length
      t.dec.nbits.toNat = (5 * j) % 8 ∧ t.dec.err = false ∧ t.outq.length = s.outq.length + 5 * j / 8) ∧
  (∀ (s : State) (c : Character) (j : Nat), 0 < j → s.dec.err = false → inv s.cfg c ≠ none →
    s.dec.nbits.toNat = (5 * (j - 1)) % 8 →
    ((emittedBy (encode (.decChar c)) s).length = if j % 8 ∈ [2, 4, 5, 7, 0] then 1 else 0) ∧
    (5 * (j - 1) / 8 < 5 * j / 8 ↔ j % 8 ∈ [2, 4, 5, 7, 0]))

/-- 42_decoder.md R99: a frame of DEC_CHARs leaves the same state and output as the same frame without its padding. -/
def Obligations.PaddingHasNoEffectAnywhere : Prop :=
  (∀ s : State, exec (.decChar s.cfg.pad) s = .next s) ∧
  (∀ (s : State) (text : List Character),
    performWords (text.map fun c => encode (.decChar c)) s =
      performWords ((stripPad s.cfg text).map fun c => encode (.decChar c)) s)

/-- 42_decoder.md R101: once `dec_err` is set, the rest of the frame changes nothing and DEC_END reports the error. -/
def Obligations.FailedFrameIgnoresTheRest : Prop :=
  ∀ (s : State) (text : List Character), s.dec.err = true →
    performWords (text.map fun c => encode (.decChar c)) s = .next s ∧
    performWords ((text.map fun c => encode (.decChar c)) ++ [encode .decEnd]) s =
      .next { s with dec := DecUnit.empty, outq := s.outq ++ [statusWord 0x6 .invalidSymbol] }

/-- 70_reset_and_hazards.md R142: what the host reads of a decoder frame is `DECODE` of its text, and of an encoder frame
the text `ENCODE` gives, whatever other commands are interleaved. How the rule of reading is written as a function of the
trace is the model's (log entry 18). -/
def Obligations.HostReadsWholeFrames : Prop :=
  (∀ (s : State) (is : List Instr) (text : List Character), s.dec = DecUnit.empty →
    is.filter isDecCmd = text.map Instr.decChar ++ [.decEnd] →
    decFrames [] (traceOf (is.map encode) s) = [refDecode s.cfg text]) ∧
  (∀ (s : State) (is : List Instr) (bytes : List Byte), s.enc = EncUnit.empty →
    is.filter isEncCmd = bytes.map Instr.encByte ++ [.encEnd] →
    encFrames .fresh (traceOf (is.map encode) s) = [.text (refEncode s.cfg bytes)])

/-- 41_encoder.md R92: one rejected ENC_BYTE is not part of its frame: the frame's symbols are `ENCODE` of the accepted bytes
and its status is `OK`; the host reads the frame as failed. How the rule of reading is written as a function of the trace
is the model's (log entry 18). -/
def Obligations.RejectedByteIsLostFromItsFrame : Prop :=
  ∀ (s : State) (bytes₁ bytes₂ : List Byte) (D : BitVec 16), s.enc = EncUnit.empty → 256 ≤ D.toNat →
    let Cs := bytes₁.map (fun b => encode (.encByte b)) ++ [cmdWord 0x2 D] ++
      bytes₂.map (fun b => encode (.encByte b)) ++ [encode .encEnd]
    symsIn ((traceOf Cs s).flatMap TraceEntry.words) = refEncode s.cfg (bytes₁ ++ bytes₂) ∧
    ((traceOf Cs s).flatMap TraceEntry.words).getLast? = some (statusWord 0x3 .ok) ∧
    statusWord 0x2 .badOperand ∈ (traceOf Cs s).flatMap TraceEntry.words ∧
    encFrames .fresh (traceOf Cs s) = [.failed]

/-- 70_reset_and_hazards.md R142: a frame abandoned by its CLEAR or by reset has no result, and what it emitted is no part
of the next frame's; a frame whose END was rejected is still open. How the rule of reading is written as a function of the
trace is the model's (log entry 18). -/
def Obligations.AbandonedAndReopenedFrames : Prop :=
  (∀ (s : State) (text₁ text₂ : List Character), s.dec = DecUnit.empty →
    decFrames [] (traceOf (text₁.map (fun c => encode (.decChar c)) ++ [encode .decClear] ++
      text₂.map (fun c => encode (.decChar c)) ++ [encode .decEnd]) s) = [refDecode s.cfg text₂]) ∧
  (∀ (s : State) (text₁ text₂ : List Character) (D : BitVec 16), s.dec = DecUnit.empty → D ≠ 0 →
    decFrames [] (traceOf (text₁.map (fun c => encode (.decChar c)) ++ [cmdWord 0x6 D] ++
      text₂.map (fun c => encode (.decChar c)) ++ [encode .decEnd]) s) = [refDecode s.cfg (text₁ ++ text₂)]) ∧
  (∀ (s : State) (bytes₁ bytes₂ : List Byte), s.enc = EncUnit.empty →
    encFrames .fresh (traceOf (bytes₁.map (fun b => encode (.encByte b)) ++ [encode .encClear] ++
      bytes₂.map (fun b => encode (.encByte b)) ++ [encode .encEnd]) s) = [.text (refEncode s.cfg bytes₂)]) ∧
  (∀ (s : State) (bytes₁ bytes₂ : List Byte) (D : BitVec 16), s.enc = EncUnit.empty → D ≠ 0 →
    encFrames .fresh (traceOf (bytes₁.map (fun b => encode (.encByte b)) ++ [cmdWord 0x3 D] ++
      bytes₂.map (fun b => encode (.encByte b)) ++ [encode .encEnd]) s) =
        [.text (refEncode s.cfg (bytes₁ ++ bytes₂))]) ∧
  (∀ (bs : List Byte) (r : EncReader) (es : List TraceEntry),
    decFrames bs (.reset :: es) = decFrames [] es ∧ encFrames r (.reset :: es) = encFrames .fresh es)
end

