-- ==== Sys2Proof/Laws/Decode.lean ====
section
/-!
SUPPORT. Command words as their two fields (30_encoding.md R55), and what decoding answers for each opcode (R58, R59).
-/
namespace Sys2Proof

@[simp] theorem opOf_cmdWord (op : Opcode) (D : BitVec 16) : opOf (cmdWord op D) = op :=
  BitVec.extractLsb'_append_eq_left

@[simp] theorem dataOf_cmdWord (op : Opcode) (D : BitVec 16) : dataOf (cmdWord op D) = D :=
  BitVec.extractLsb'_append_eq_right

/-- A word is its two fields. -/
theorem cmdWord_opOf_dataOf (C : CmdWord) : cmdWord (opOf C) (dataOf C) = C := by
  apply BitVec.eq_of_getLsbD_eq
  intro i hi
  simp only [cmdWord, opOf, dataOf, BitVec.getLsbD_append, BitVec.getLsbD_extractLsb']
  by_cases h : i < 16
  · simp [h]
  · simp [h, show i - 16 < 4 by omega, show 16 + (i - 16) = i by omega]

@[simp] theorem decodeCmd_cmdWord (op : Opcode) (D : BitVec 16) : decodeCmd (cmdWord op D) = decodeFields op D := by
  simp [decodeCmd]

/-- An operand whose reserved high bits are 0 is its low bits, widened (30_encoding.md R56, R57). -/
theorem join_of_high_zero {m n : Nat} {D : BitVec 16} (hmn : m + n = 16) (h : D.extractLsb' n m = 0) :
    (0#m ++ D.extractLsb' 0 n).cast hmn = D := by
  apply BitVec.eq_of_getLsbD_eq
  intro i hi
  have hb := congrArg (fun x => x.getLsbD (i - n)) h
  simp only [BitVec.getLsbD_extractLsb'] at hb
  simp only [BitVec.getLsbD_cast, BitVec.getLsbD_append, BitVec.getLsbD_extractLsb', BitVec.getLsbD_zero]
  by_cases h' : i < n
  · simp [h']
  · simp [h', show i - n < m by omega, show n + (i - n) = i by omega] at hb ⊢
    exact hb

/-- What decoding answers: a command, whose only word this is; a reserved opcode; or reserved operand bits. -/
theorem decodeFields_cases (op : Opcode) (D : BitVec 16) :
    (∃ i, decodeFields op D = .cmd i ∧ encode i = cmdWord op D) ∨
    (10 ≤ op.toNat ∧ decodeFields op D = .illegal op) ∨
    (op.toNat ∈ [0, 1, 3, 4, 6] ∧ D ≠ 0 ∧ decodeFields op D = .badOperand op) ∨
    (op.toNat = 2 ∧ D.extractLsb' 8 8 ≠ 0 ∧ decodeFields op D = .badOperand op) ∨
    (op.toNat = 7 ∧ D.extractLsb' 5 11 ≠ 0 ∧ decodeFields op D = .badOperand op) := by
  have hz : ∀ i, op.toNat ∈ [0, 1, 3, 4, 6] → (D = 0 → encode i = cmdWord op D) →
      (∃ j, formZ op D i = .cmd j ∧ encode j = cmdWord op D) ∨
      (op.toNat ∈ [0, 1, 3, 4, 6] ∧ D ≠ 0 ∧ formZ op D i = .badOperand op) := by
    intro i hop hi
    by_cases hD : D = 0
    · exact .inl ⟨i, if_pos hD, hi hD⟩
    · exact .inr ⟨hop, hD, if_neg hD⟩
  have hop : ∀ k : Nat, k < 16 → op.toNat = k → op = BitVec.ofNat 4 k := by
    intro k hk h
    apply BitVec.eq_of_toNat_eq
    simp [h, Nat.mod_eq_of_lt hk]
  unfold decodeFields
  split
  · rename_i h
    rcases hz .nop (by simp [h]) (fun hD => by rw [hop _ (by omega) h, hD]; rfl) with h' | h'
    · exact .inl h'
    · exact .inr (.inr (.inl h'))
  · rename_i h
    rcases hz .encClear (by simp [h]) (fun hD => by rw [hop _ (by omega) h, hD]; rfl) with h' | h'
    · exact .inl h'
    · exact .inr (.inr (.inl h'))
  · rename_i h
    by_cases hD : D.extractLsb' 8 8 = 0
    · refine .inl ⟨.encByte (D.extractLsb' 0 8), if_pos hD, ?_⟩
      rw [hop _ (by omega) h]
      exact congrArg (cmdWord 0x2) (join_of_high_zero (m := 8) (n := 8) rfl hD)
    · exact .inr (.inr (.inr (.inl ⟨h, hD, if_neg hD⟩)))
  · rename_i h
    rcases hz .encEnd (by simp [h]) (fun hD => by rw [hop _ (by omega) h, hD]; rfl) with h' | h'
    · exact .inl h'
    · exact .inr (.inr (.inl h'))
  · rename_i h
    rcases hz .decClear (by simp [h]) (fun hD => by rw [hop _ (by omega) h, hD]; rfl) with h' | h'
    · exact .inl h'
    · exact .inr (.inr (.inl h'))
  · rename_i h
    exact .inl ⟨.decChar D, rfl, by rw [hop _ (by omega) h]; rfl⟩
  · rename_i h
    rcases hz .decEnd (by simp [h]) (fun hD => by rw [hop _ (by omega) h, hD]; rfl) with h' | h'
    · exact .inl h'
    · exact .inr (.inr (.inl h'))
  · rename_i h
    by_cases hD : D.extractLsb' 5 11 = 0
    · refine .inl ⟨.mapVal (D.extractLsb' 0 5), if_pos hD, ?_⟩
      rw [hop _ (by omega) h]
      exact congrArg (cmdWord 0x7) (join_of_high_zero (m := 11) (n := 5) rfl hD)
    · exact .inr (.inr (.inr (.inr ⟨h, hD, if_neg hD⟩)))
  · rename_i h
    exact .inl ⟨.mapSym D, rfl, by rw [hop _ (by omega) h]; rfl⟩
  · rename_i h
    exact .inl ⟨.stripChar D, rfl, by rw [hop _ (by omega) h]; rfl⟩
  · rename_i h₀ h₁ h₂ h₃ h₄ h₅ h₆ h₇ h₈ h₉
    refine .inr (.inl ⟨?_, rfl⟩)
    have hne : ∀ k, op.toNat ≠ k ∨ 10 ≤ k := by
      intro k
      by_cases hk : op.toNat = k
      · right
        by_contra hlt
        have : k < 10 := by omega
        interval_cases k
        exacts [h₀ hk, h₁ hk, h₂ hk, h₃ hk, h₄ hk, h₅ hk, h₆ hk, h₇ hk, h₈ hk, h₉ hk]
      · exact .inl hk
    exact (hne op.toNat).resolve_left (fun h => h rfl)

end Sys2Proof
end

