-- ==== Sys2Proof/Laws/State.lean ====
section
/-!
SUPPORT. One lemma per field per named update of State, each true by unfolding, so that no later proof unfolds an update.
-/
namespace Sys2Proof.Machine

variable (ws : List OutWord) (e : EncUnit) (d : DecUnit) (C : CmdWord) (s : State)

@[simp] theorem emitAll_cfg : (emitAll ws s).cfg = s.cfg := rfl
@[simp] theorem emitAll_enc : (emitAll ws s).enc = s.enc := rfl
@[simp] theorem emitAll_dec : (emitAll ws s).dec = s.dec := rfl
@[simp] theorem emitAll_outq : (emitAll ws s).outq = s.outq ++ ws := rfl
@[simp] theorem emitAll_rstSeen : (emitAll ws s).rstSeen = s.rstSeen := rfl
@[simp] theorem emitAll_input : (emitAll ws s).input = s.input := rfl
@[simp] theorem emitAll_turns : (emitAll ws s).turns = s.turns := rfl
@[simp] theorem emitAll_popped : (emitAll ws s).popped = s.popped := rfl

@[simp] theorem setEnc_cfg : (setEnc e s).cfg = s.cfg := rfl
@[simp] theorem setEnc_enc : (setEnc e s).enc = e := rfl
@[simp] theorem setEnc_dec : (setEnc e s).dec = s.dec := rfl
@[simp] theorem setEnc_outq : (setEnc e s).outq = s.outq := rfl
@[simp] theorem setEnc_rstSeen : (setEnc e s).rstSeen = s.rstSeen := rfl
@[simp] theorem setEnc_input : (setEnc e s).input = s.input := rfl
@[simp] theorem setEnc_turns : (setEnc e s).turns = s.turns := rfl
@[simp] theorem setEnc_popped : (setEnc e s).popped = s.popped := rfl

@[simp] theorem setDec_cfg : (setDec d s).cfg = s.cfg := rfl
@[simp] theorem setDec_enc : (setDec d s).enc = s.enc := rfl
@[simp] theorem setDec_dec : (setDec d s).dec = d := rfl
@[simp] theorem setDec_outq : (setDec d s).outq = s.outq := rfl
@[simp] theorem setDec_rstSeen : (setDec d s).rstSeen = s.rstSeen := rfl
@[simp] theorem setDec_input : (setDec d s).input = s.input := rfl
@[simp] theorem setDec_turns : (setDec d s).turns = s.turns := rfl
@[simp] theorem setDec_popped : (setDec d s).popped = s.popped := rfl

@[simp] theorem assertReset_cfg : (assertReset s).cfg = s.cfg := rfl
@[simp] theorem assertReset_enc : (assertReset s).enc = EncUnit.empty := rfl
@[simp] theorem assertReset_dec : (assertReset s).dec = DecUnit.empty := rfl
@[simp] theorem assertReset_outq : (assertReset s).outq = [] := rfl
@[simp] theorem assertReset_rstSeen : (assertReset s).rstSeen = true := rfl
@[simp] theorem assertReset_input : (assertReset s).input = s.input := rfl
@[simp] theorem assertReset_turns : (assertReset s).turns = s.turns := rfl
@[simp] theorem assertReset_popped : (assertReset s).popped = s.popped := rfl

@[simp] theorem hostPush_cfg : (hostPush C s).cfg = s.cfg := rfl
@[simp] theorem hostPush_enc : (hostPush C s).enc = s.enc := rfl
@[simp] theorem hostPush_dec : (hostPush C s).dec = s.dec := rfl
@[simp] theorem hostPush_outq : (hostPush C s).outq = s.outq := rfl
@[simp] theorem hostPush_rstSeen : (hostPush C s).rstSeen = s.rstSeen := rfl
@[simp] theorem hostPush_input : (hostPush C s).input = s.input ++ [C] := rfl
@[simp] theorem hostPush_turns : (hostPush C s).turns = s.turns := rfl
@[simp] theorem hostPush_popped : (hostPush C s).popped = s.popped := rfl

@[simp] theorem presentWord_cfg : (presentWord C s).cfg = s.cfg := rfl
@[simp] theorem presentWord_enc : (presentWord C s).enc = s.enc := rfl
@[simp] theorem presentWord_dec : (presentWord C s).dec = s.dec := rfl
@[simp] theorem presentWord_outq : (presentWord C s).outq = s.outq := rfl
@[simp] theorem presentWord_rstSeen : (presentWord C s).rstSeen = s.rstSeen := rfl
@[simp] theorem presentWord_input : (presentWord C s).input = C :: s.input := rfl
@[simp] theorem presentWord_turns : (presentWord C s).turns = .block :: s.turns := rfl
@[simp] theorem presentWord_popped : (presentWord C s).popped = s.popped := rfl

variable (ts : List Turn) (is : List CmdWord) (ps : List OutWord)

/-! Acceptance and the units' check read the units, `OUTQ`, `rst_seen` and the configuration only. -/

@[simp] theorem accept_turns : accept { s with turns := ts } C = accept s C := rfl
@[simp] theorem accept_input : accept { s with input := is } C = accept s C := rfl
@[simp] theorem accept_popped : accept { s with popped := ps } C = accept s C := rfl
@[simp] theorem unitsWf_turns : unitsWf { s with turns := ts } = unitsWf s := rfl
@[simp] theorem unitsWf_input : unitsWf { s with input := is } = unitsWf s := rfl
@[simp] theorem unitsWf_outq : unitsWf { s with outq := ps } = unitsWf s := rfl
@[simp] theorem unitsWf_popped : unitsWf { s with popped := ps } = unitsWf s := rfl

end Sys2Proof.Machine
end

