-- ==== Sys2Proof/Laws/Table.lean ====
section
/-!
SUPPORT. What a valid configuration gives (00_scope.md R8), and the lookups of the alphabet table (43_alphabet_mapper.md
R103): one lemma says what `inv` answers, one what `classify` answers.
-/
namespace Sys2Proof

theorem Config.parts (cfg : Config) :
    cfg.toConfigData.distinct = true ∧ cfg.toConfigData.padApart = true ∧ 9 ≤ cfg.outDepth := by
  have h := cfg.valid
  simp only [ConfigData.valid, Bool.and_eq_true, decide_eq_true_eq] at h
  exact ⟨h.1.1, h.1.2, h.2⟩

/-- `OUT_DEPTH >= 9` (00_scope.md R7). -/
theorem Config.nine_le_outDepth (cfg : Config) : 9 ≤ cfg.outDepth := cfg.parts.2.2

end Sys2Proof

namespace Sys2Proof.Machine

/-- No two values have one symbol (00_scope.md R8). -/
theorem symbolOf_injective (cfg : Config) {v w : SymVal} (h : symbolOf cfg v = symbolOf cfg w) : v = w := by
  have hd := cfg.parts.1
  simp only [ConfigData.distinct, decide_eq_true_eq] at hd
  by_contra hne
  exact hd ⟨v.toNat, v.isLt⟩ ⟨w.toNat, w.isLt⟩ (fun h' => hne (BitVec.eq_of_toNat_eq (congrArg Fin.val h'))) h

/-- The padding character is no symbol (00_scope.md R8). -/
theorem symbolOf_ne_pad (cfg : Config) (v : SymVal) : symbolOf cfg v ≠ cfg.pad := by
  have hp := cfg.parts.2.1
  simp only [ConfigData.padApart, decide_eq_true_eq] at hp
  exact hp ⟨v.toNat, v.isLt⟩

theorem mem_symVals (v : SymVal) : v ∈ symVals :=
  List.mem_map.mpr ⟨v.toNat, List.mem_range.mpr v.isLt, by simp⟩

/-- A value's symbol is found at that value (43_alphabet_mapper.md R103). -/
theorem inv_symbolOf (cfg : Config) (v : SymVal) : inv cfg (symbolOf cfg v) = some v := by
  unfold inv
  cases h : symVals.find? fun w => symbolOf cfg w == symbolOf cfg v with
  | none =>
    have := List.find?_eq_none.mp h v (mem_symVals v)
    simp at this
  | some w =>
    have := List.find?_some h
    exact congrArg some (symbolOf_injective cfg (by simpa using this))

/-- What `inv` answers (43_alphabet_mapper.md R103). -/
theorem inv_eq_some_iff {cfg : Config} {c : Character} {v : SymVal} : inv cfg c = some v ↔ symbolOf cfg v = c := by
  constructor
  · intro h
    simpa using List.find?_some h
  · rintro rfl
    exact inv_symbolOf cfg v

theorem inv_pad (cfg : Config) : inv cfg cfg.pad = none := by
  cases h : inv cfg cfg.pad with
  | none => rfl
  | some v => exact absurd (inv_eq_some_iff.mp h) (symbolOf_ne_pad cfg v)

theorem classify_pad (cfg : Config) : classify cfg cfg.pad = .padding := by simp [classify]

theorem classify_of_inv_none {cfg : Config} {c : Character} (hp : c ≠ cfg.pad) (h : inv cfg c = none) :
    classify cfg c = .invalid := by
  simp [classify, hp, h]

theorem classify_of_inv_some {cfg : Config} {c : Character} {v : SymVal} (h : inv cfg c = some v) :
    classify cfg c = .symbol v := by
  have hp : c ≠ cfg.pad := fun hc => by rw [hc, inv_pad] at h; cases h
  simp [classify, hp, h]

/-- What `classify` answers (42_decoder.md R95, 43_alphabet_mapper.md R105). -/
theorem classify_cases (cfg : Config) (c : Character) :
    (c = cfg.pad ∧ classify cfg c = .padding) ∨
    (c ≠ cfg.pad ∧ inv cfg c = none ∧ classify cfg c = .invalid) ∨
    (∃ v, c ≠ cfg.pad ∧ inv cfg c = some v ∧ classify cfg c = .symbol v) := by
  by_cases hp : c = cfg.pad
  · exact .inl ⟨hp, hp ▸ classify_pad cfg⟩
  · cases h : inv cfg c with
    | none => exact .inr (.inl ⟨hp, rfl, classify_of_inv_none hp h⟩)
    | some v => exact .inr (.inr ⟨v, hp, rfl, classify_of_inv_some h⟩)

end Sys2Proof.Machine
end

