-- ==== Sys2Proof/Laws/Exec.lean ====
section
/-!
SUPPORT. What a command does, said once: `perform` always answers a next state, which differs in the units and in the tail
of `OUTQ` only. Later proofs cite `perform_eq` and the lemmas about its three parts, and unfold no command.
-/
namespace Sys2Proof.Machine

/-- The encoder after a decoded word, from the encoder before it. -/
def encAfter (d : Decoded) (e : EncUnit) : EncUnit :=
  match d with
  | .cmd .encClear => EncUnit.empty
  | .cmd (.encByte byte) => encAfterByte e byte
  | .cmd .encEnd => EncUnit.empty
  | _ => e

/-- The decoder after a decoded word, from the table and the decoder before it. -/
def decAfter (cfg : Config) (d : Decoded) (u : DecUnit) : DecUnit :=
  match d with
  | .cmd .decClear => DecUnit.empty
  | .cmd .decEnd => DecUnit.empty
  | .cmd (.decChar ch) =>
    if u.err then u
    else match classify cfg ch with
      | .padding => u
      | .invalid => markInvalid u
      | .symbol v => decAfterSym u v
  | _ => u

/-- The words a decoded word emits, from the table and the units. -/
def emits (cfg : Config) (e : EncUnit) (u : DecUnit) : Decoded → List OutWord
  | .cmd .nop => []
  | .cmd .encClear => []
  | .cmd (.encByte byte) => (encGroups e byte).1.map fun g => symWord (symbolOf cfg g)
  | .cmd .encEnd => fillWords cfg e ++ padWords cfg (endNsym e) ++ [statusWord 0x3 .ok]
  | .cmd .decClear => []
  | .cmd (.decChar ch) =>
    if u.err then []
    else match classify cfg ch with
      | .padding => []
      | .invalid => []
      | .symbol v => (decBytes u v).map byteWord
  | .cmd .decEnd => [statusWord 0x6 (endCode u)]
  | .cmd (.mapVal val) => [symWord (symbolOf cfg val)]
  | .cmd (.mapSym ch) => [valWord (classBits (classify cfg ch))]
  | .cmd (.stripChar ch) => if ch = cfg.pad then [] else [symWord ch]
  | .illegal op => [statusWord op .illegalOpcode]
  | .badOperand op => [statusWord op .badOperand]

/-- Everything a command can do. -/
theorem perform_eq (d : Decoded) (s : State) :
    perform d s = .next { s with
      enc := encAfter d s.enc
      dec := decAfter s.cfg d s.dec
      outq := s.outq ++ emits s.cfg s.enc s.dec d } := by
  cases d with
  | illegal op => rfl
  | badOperand op => rfl
  | cmd i =>
    cases i with
    | decChar ch =>
      simp only [perform, exec, execDecChar, encAfter, decAfter, emits]
      cases h : s.dec.err
      · cases hc : classify s.cfg ch <;> simp [emitAll, setDec]
      · simp
    | stripChar ch =>
      by_cases h : ch = s.cfg.pad <;>
        simp [perform, exec, execStripChar, encAfter, decAfter, emits, emitAll, h]
    | nop => simp [perform, exec, execNop, encAfter, decAfter, emits]
    | encClear => simp [perform, exec, execEncClear, encAfter, decAfter, emits, setEnc]
    | encByte byte => rfl
    | encEnd => rfl
    | decClear => simp [perform, exec, execDecClear, encAfter, decAfter, emits, setDec]
    | decEnd => rfl
    | mapVal val => rfl
    | mapSym ch => rfl

/-- The same for `exec`. -/
theorem exec_eq (i : Instr) (s : State) :
    exec i s = .next { s with
      enc := encAfter (.cmd i) s.enc
      dec := decAfter s.cfg (.cmd i) s.dec
      outq := s.outq ++ emits s.cfg s.enc s.dec (.cmd i) } :=
  perform_eq (.cmd i) s

/-- The words a command word emits. -/
theorem emittedBy_eq (C : CmdWord) (s : State) :
    emittedBy C s = emits s.cfg s.enc s.dec (decodeCmd C) := by
  simp [emittedBy, perform_eq]

end Sys2Proof.Machine
end

