-- ==== Sys2Proof/Laws/Units.lean ====
section
/-!
SUPPORT. The bit arithmetic of the two accumulators in unsigned numbers (41_encoder.md R87, R91; 42_decoder.md R95, R102),
and that the commands keep the units' invariants (10_state.md R26, R30).
-/
namespace Sys2Proof.Machine

theorem takeGroups_add_five (acc : BitVec 12) (n : Nat) :
    takeGroups acc (n + 5) = ((acc >>> n).setWidth 5 :: (takeGroups acc n).1, (takeGroups acc n).2) := by
  rw [takeGroups]

theorem takeGroups_of_lt {acc : BitVec 12} {n : Nat} (h : n < 5) : takeGroups acc n = ([], n) := by
  match n, h with
  | 0, _ => rfl
  | 1, _ => rfl
  | 2, _ => rfl
  | 3, _ => rfl
  | 4, _ => rfl

/-- How many groups the loop takes, and how many bits it leaves. -/
theorem takeGroups_counts (acc : BitVec 12) (n : Nat) :
    (takeGroups acc n).1.length = n / 5 ∧ (takeGroups acc n).2 = n % 5 := by
  induction n using Nat.strongRecOn with
  | ind n ih =>
    by_cases h : n < 5
    · rw [takeGroups_of_lt h]
      exact ⟨by simp [Nat.div_eq_of_lt h], (Nat.mod_eq_of_lt h).symm⟩
    · obtain ⟨m, rfl⟩ : ∃ m, n = m + 5 := ⟨n - 5, by omega⟩
      obtain ⟨h₁, h₂⟩ := ih m (by omega)
      rw [takeGroups_add_five]
      exact ⟨by simp [h₁], by simp [h₂]⟩

theorem toNat_lowBits (acc : BitVec 12) {n : Nat} (h : n ≤ 12) : (lowBits acc n).toNat = acc.toNat % 2 ^ n := by
  have hm : ((1#12 <<< n) - 1#12).toNat = 2 ^ n - 1 := by
    have : n = 0 ∨ n = 1 ∨ n = 2 ∨ n = 3 ∨ n = 4 ∨ n = 5 ∨ n = 6 ∨ n = 7 ∨ n = 8 ∨ n = 9 ∨ n = 10 ∨ n = 11 ∨ n = 12 := by
      omega
    rcases this with h | h | h | h | h | h | h | h | h | h | h | h | h <;> subst h <;> rfl
  rw [lowBits, BitVec.toNat_and, hm, Nat.and_two_pow_sub_one_eq_mod]

theorem toNat_shiftInByte (acc : BitVec 4) (byte : Byte) :
    (shiftInByte acc byte).toNat = acc.toNat * 256 + byte.toNat := by
  have h : (shiftInByte acc byte) = acc ++ byte := by
    apply BitVec.eq_of_getLsbD_eq
    intro i hi
    simp only [shiftInByte, BitVec.getLsbD_or, BitVec.getLsbD_shiftLeft, BitVec.getLsbD_setWidth, BitVec.getLsbD_append]
    by_cases h8 : i < 8
    · simp [h8, show i < 12 by omega]
    · have : byte.getLsbD i = false := BitVec.getLsbD_of_ge _ _ (by omega)
      simp [h8, show i < 12 by omega, show i - 8 < 12 by omega, this]
  rw [h, BitVec.toNat_append, Nat.shiftLeft_eq, Nat.mul_comm, ← Nat.two_pow_add_eq_or_of_lt byte.isLt]

theorem toNat_shiftInSym (acc : BitVec 7) (v : SymVal) :
    (shiftInSym acc v).toNat = acc.toNat * 32 + v.toNat := by
  have h : (shiftInSym acc v) = acc ++ v := by
    apply BitVec.eq_of_getLsbD_eq
    intro i hi
    simp only [shiftInSym, BitVec.getLsbD_or, BitVec.getLsbD_shiftLeft, BitVec.getLsbD_setWidth, BitVec.getLsbD_append]
    by_cases h5 : i < 5
    · simp [h5, show i < 12 by omega]
    · have : v.getLsbD i = false := BitVec.getLsbD_of_ge _ _ (by omega)
      simp [h5, show i < 12 by omega, show i - 5 < 12 by omega, this]
  rw [h, BitVec.toNat_append, Nat.shiftLeft_eq, Nat.mul_comm, ← Nat.two_pow_add_eq_or_of_lt v.isLt]

/-- The encoder invariant of 10_state.md R26, in numbers. -/
theorem encWf_iff {e : EncUnit} : encWf e = true ↔ e.nbits.toNat ≤ 4 ∧ e.acc.toNat < 2 ^ e.nbits.toNat := by
  simp [encWf]

/-- The decoder invariant of 10_state.md R30, in numbers. -/
theorem decWf_iff {u : DecUnit} : decWf u = true ↔ u.nbits.toNat ≤ 7 ∧ u.acc.toNat < 2 ^ u.nbits.toNat := by
  simp [decWf]

/-- The bits `ENC_BYTE` leaves pending (41_encoder.md R87). -/
theorem encGroups_left (e : EncUnit) (byte : Byte) : (encGroups e byte).2 = (e.nbits.toNat + 8) % 5 :=
  (takeGroups_counts _ _).2

/-- How many groups `ENC_BYTE` completes (41_encoder.md R87). -/
theorem encGroups_length (e : EncUnit) (byte : Byte) : (encGroups e byte).1.length = (e.nbits.toNat + 8) / 5 :=
  (takeGroups_counts _ _).1

theorem nbits_encAfterByte (e : EncUnit) (byte : Byte) :
    (encAfterByte e byte).nbits.toNat = (e.nbits.toNat + 8) % 5 := by
  simp only [encAfterByte, encGroups_left, BitVec.toNat_ofNat]
  omega

theorem acc_encAfterByte (e : EncUnit) (byte : Byte) :
    (encAfterByte e byte).acc.toNat = (e.acc.toNat * 256 + byte.toNat) % 2 ^ ((e.nbits.toNat + 8) % 5) := by
  simp only [encAfterByte, encGroups_left, BitVec.toNat_setWidth]
  rw [toNat_lowBits _ (by omega), toNat_shiftInByte]
  apply Nat.mod_eq_of_lt
  calc _ < 2 ^ ((e.nbits.toNat + 8) % 5) := Nat.mod_lt _ (Nat.two_pow_pos _)
    _ ≤ 2 ^ 4 := Nat.pow_le_pow_right (by omega) (by omega)

theorem nsym_encAfterByte (e : EncUnit) (byte : Byte) :
    (encAfterByte e byte).nsym.toNat = (e.nsym.toNat + (e.nbits.toNat + 8) / 5) % 8 := by
  simp only [encAfterByte, encGroups_length, BitVec.toNat_add, BitVec.toNat_ofNat]
  omega

theorem encWf_encAfterByte (e : EncUnit) (byte : Byte) : encWf (encAfterByte e byte) = true := by
  rw [encWf_iff, nbits_encAfterByte, acc_encAfterByte]
  exact ⟨by omega, Nat.mod_lt _ (Nat.two_pow_pos _)⟩

/-- Every command keeps the encoder invariant (10_state.md R26). -/
theorem encWf_encAfter {e : EncUnit} (h : encWf e = true) (d : Decoded) : encWf (encAfter d e) = true := by
  unfold encAfter
  split
  · rfl
  · exact encWf_encAfterByte _ _
  · rfl
  · exact h

theorem decLeft_eq (u : DecUnit) : decLeft u = (u.nbits.toNat + 5) % 8 := by
  unfold decLeft
  have := u.nbits.isLt
  split <;> omega

theorem nbits_decAfterSym (u : DecUnit) (v : SymVal) : (decAfterSym u v).nbits.toNat = (u.nbits.toNat + 5) % 8 := by
  simp only [decAfterSym, decLeft_eq, BitVec.toNat_ofNat]
  omega

theorem acc_decAfterSym (u : DecUnit) (v : SymVal) :
    (decAfterSym u v).acc.toNat = (u.acc.toNat * 32 + v.toNat) % 2 ^ ((u.nbits.toNat + 5) % 8) := by
  simp only [decAfterSym, decLeft_eq, BitVec.toNat_setWidth]
  rw [toNat_lowBits _ (by omega), toNat_shiftInSym]
  apply Nat.mod_eq_of_lt
  calc _ < 2 ^ ((u.nbits.toNat + 5) % 8) := Nat.mod_lt _ (Nat.two_pow_pos _)
    _ ≤ 2 ^ 7 := Nat.pow_le_pow_right (by omega) (by omega)

@[simp] theorem err_decAfterSym (u : DecUnit) (v : SymVal) : (decAfterSym u v).err = u.err := rfl

theorem decWf_decAfterSym (u : DecUnit) (v : SymVal) : decWf (decAfterSym u v) = true := by
  rw [decWf_iff, nbits_decAfterSym, acc_decAfterSym]
  exact ⟨by omega, Nat.mod_lt _ (Nat.two_pow_pos _)⟩

/-- Every command keeps the decoder invariant (10_state.md R30). -/
theorem decWf_decAfter {u : DecUnit} (h : decWf u = true) (cfg : Config) (d : Decoded) :
    decWf (decAfter cfg d u) = true := by
  unfold decAfter
  split
  · rfl
  · rfl
  · split
    · exact h
    · split
      · exact h
      · exact h
      · exact decWf_decAfterSym _ _
  · exact h

/-- The five oldest of `n` pending bits, in numbers (41_encoder.md R87). -/
theorem toNat_group (acc : BitVec 12) (n : Nat) : ((acc >>> n).setWidth 5).toNat = acc.toNat / 2 ^ n % 32 := by
  simp [BitVec.toNat_setWidth, BitVec.toNat_ushiftRight, Nat.shiftRight_eq_div_pow]

/-- The eight oldest of `n` pending bits, in numbers (42_decoder.md R95). -/
theorem toNat_oldestByte (acc : BitVec 12) (n : Nat) : (oldestByte acc n).toNat = acc.toNat / 2 ^ (n - 8) % 256 := by
  simp [oldestByte, BitVec.toNat_setWidth, BitVec.toNat_ushiftRight, Nat.shiftRight_eq_div_pow]

/-- The fill group, in numbers (41_encoder.md R88). -/
theorem toNat_fillGroup (acc : BitVec 4) (nbits : BitVec 3) :
    (fillGroup acc nbits).toNat = acc.toNat * 2 ^ (5 - nbits.toNat) % 32 := by
  have := acc.isLt
  simp only [fillGroup, BitVec.toNat_shiftLeft, BitVec.toNat_setWidth, Nat.shiftLeft_eq]
  rw [Nat.mod_eq_of_lt (show acc.toNat < 2 ^ 5 by omega)]

end Sys2Proof.Machine
end

