-- ==== Sys2Proof/Laws/Output.lean ====
section
/-!
SUPPORT. The output words: each constructor read back (30_encoding.md R60-R67), that every emitted word is one the block
can produce, and that no command emits more than its `MAXOUT` (R69).
-/
namespace Sys2Proof.Machine

@[simp] theorem tagOf_symWord (c : Character) : tagOf (symWord c) = 0 := by
  simp only [tagOf, symWord]; exact BitVec.extractLsb'_append_eq_left

@[simp] theorem valueOf_symWord (c : Character) : valueOf (symWord c) = c := by
  simp only [valueOf, symWord]; exact BitVec.extractLsb'_append_eq_right

@[simp] theorem tagOf_valWord (x : BitVec 16) : tagOf (valWord x) = 2 := by
  simp only [tagOf, valWord]; exact BitVec.extractLsb'_append_eq_left

@[simp] theorem valueOf_valWord (x : BitVec 16) : valueOf (valWord x) = x := by
  simp only [valueOf, valWord]; exact BitVec.extractLsb'_append_eq_right

theorem readWord_byteWord : ∀ b : Byte, readWord (byteWord b) = some (.byte b) := by decide +kernel

theorem readWord_statusWord : ∀ (op : Opcode) (code : StatusCode),
    readWord (statusWord op code) = if statusProduced op code then some (.status op code) else none := by
  intro op code
  revert op
  cases code <;> decide +kernel

theorem tagOf_byteWord : ∀ b : Byte, tagOf (byteWord b) = 1 := by decide +kernel

theorem valueOf_byteWord : ∀ b : Byte, (valueOf (byteWord b)).extractLsb' 0 8 = b := by decide +kernel

theorem tagOf_statusWord : ∀ (op : Opcode) (code : StatusCode), tagOf (statusWord op code) = 3 := by
  intro op code
  revert op
  cases code <;> decide +kernel

theorem readWord_symWord (c : Character) : readWord (symWord c) = some (.sym c) := by
  simp [readWord]

theorem readVal_symVal : ∀ v : SymVal, readVal (v.setWidth 16) = some (.val v) := by decide +kernel

theorem readWord_valWord (x : BitVec 16) : readWord (valWord x) = readVal x := by
  simp [readWord]

@[simp] theorem producible_symWord (c : Character) : producible (symWord c) = true := by
  simp [producible, readWord_symWord]

@[simp] theorem producible_byteWord (b : Byte) : producible (byteWord b) = true := by
  simp [producible, readWord_byteWord]

theorem producible_statusWord (op : Opcode) (code : StatusCode) :
    producible (statusWord op code) = statusProduced op code := by
  simp only [producible, readWord_statusWord]
  split <;> simp_all

theorem producible_classBits (k : CharClass) : producible (valWord (classBits k)) = true := by
  cases k with
  | padding => rfl
  | symbol v => simp [producible, readWord_valWord, classBits, readVal_symVal]
  | invalid => rfl

/-- The status word of a rejected command word is one the block can produce (30_encoding.md R67). -/
theorem statusProduced_of_error (C : CmdWord) :
    (∀ op, decodeCmd C = .illegal op → statusProduced op .illegalOpcode = true) ∧
    (∀ op, decodeCmd C = .badOperand op → statusProduced op .badOperand = true) := by
  have hill : ∀ op : Opcode, 10 ≤ op.toNat → statusProduced op .illegalOpcode = true := by decide +kernel
  have hbad : ∀ op : Opcode, op.toNat ∈ [0, 1, 2, 3, 4, 6, 7] → statusProduced op .badOperand = true := by decide +kernel
  unfold decodeCmd
  rcases decodeFields_cases (opOf C) (dataOf C) with ⟨i, h, -⟩ | ⟨hop, h⟩ | ⟨hop, -, h⟩ | ⟨hop, -, h⟩ | ⟨hop, -, h⟩ <;>
    rw [h]
  · exact ⟨fun _ h => (nomatch h), fun _ h => (nomatch h)⟩
  · exact ⟨fun op h => by cases h; exact hill _ hop, fun _ h => (nomatch h)⟩
  all_goals exact ⟨fun _ h => (nomatch h), fun op h => by cases h; exact hbad _ (by simp_all; try omega)⟩

/-- Every word the block emits is one it can produce (30_encoding.md R67). -/
theorem producible_of_mem_emits {cfg : Config} {e : EncUnit} {u : DecUnit} {C : CmdWord} {w : OutWord}
    (h : w ∈ emits cfg e u (decodeCmd C)) : producible w = true := by
  have herr := statusProduced_of_error C
  cases hd : decodeCmd C with
  | illegal op =>
    rw [hd] at h
    simp only [emits, List.mem_singleton] at h
    rw [h, producible_statusWord, herr.1 op hd]
  | badOperand op =>
    rw [hd] at h
    simp only [emits, List.mem_singleton] at h
    rw [h, producible_statusWord, herr.2 op hd]
  | cmd i =>
    rw [hd] at h
    cases i with
    | nop => simp [emits] at h
    | encClear => simp [emits] at h
    | decClear => simp [emits] at h
    | encByte byte =>
      simp only [emits, List.mem_map] at h
      obtain ⟨g, -, rfl⟩ := h
      simp
    | encEnd =>
      simp only [emits, fillWords, padWords, List.mem_append, List.mem_singleton] at h
      rcases h with (h | h) | h
      · split at h <;> simp_all
      · split at h
        · rw [List.eq_of_mem_replicate h]; simp
        · simp at h
      · rw [h]; rfl
    | decChar ch =>
      simp only [emits] at h
      split at h
      · simp at h
      · split at h
        · simp at h
        · simp at h
        · obtain ⟨b, -, rfl⟩ := List.mem_map.mp h
          simp
    | decEnd =>
      simp only [emits, List.mem_singleton] at h
      rw [h, producible_statusWord, endCode]
      split <;> rfl
    | mapVal val =>
      simp only [emits, List.mem_singleton] at h
      rw [h]; simp
    | mapSym ch =>
      simp only [emits, List.mem_singleton] at h
      rw [h]; exact producible_classBits _
    | stripChar ch =>
      simp only [emits] at h
      split at h
      · simp at h
      · rw [List.mem_singleton.mp h]; simp

theorem length_padWords (cfg : Config) (nsym : BitVec 3) : (padWords cfg nsym).length = (8 - nsym.toNat) % 8 := by
  unfold padWords
  have := nsym.isLt
  split
  · rename_i h
    have : nsym.toNat ≠ 0 := fun h' => h (BitVec.eq_of_toNat_eq (by simpa using h'))
    simp only [List.length_replicate]
    omega
  · rename_i h
    simp at h
    simp [h]

/-- No command emits more than its `MAXOUT` (30_encoding.md R69). -/
theorem length_emits_le {cfg : Config} {e : EncUnit} (h : encWf e = true) (u : DecUnit) (d : Decoded) :
    (emits cfg e u d).length ≤ maxOut d := by
  cases d with
  | illegal op => simp [emits, maxOut]
  | badOperand op => simp [emits, maxOut]
  | cmd i =>
    cases i with
    | encByte byte =>
      have := (encWf_iff.mp h).1
      simp only [emits, maxOut, List.length_map, encGroups_length]
      omega
    | encEnd =>
      have : (fillWords cfg e).length ≤ 1 := by unfold fillWords; split <;> simp
      simp only [emits, maxOut, List.length_append, length_padWords, List.length_singleton]
      omega
    | decChar ch =>
      simp only [emits, maxOut]
      split
      · simp
      · split <;> simp [decBytes]
        split <;> simp
    | stripChar ch => simp only [emits, maxOut]; split <;> simp
    | _ => simp [emits, maxOut]

end Sys2Proof.Machine
end

