-- ==== Sys2Proof/Laws/Step.lean ====
section
/-!
SUPPORT. What a step can do, said once: one equation for the schedule and one inversion lemma for each agent's turn.
Invariants of the machine are proved by cases on these, not by unfolding `step`.
-/
namespace Sys2Proof.Machine

/-- A step takes the head of the schedule, or the block's turn if the schedule is empty. -/
theorem step_eq_doTurn (s : State) : step s = doTurn (s.turns.headD .block) { s with turns := s.turns.tail } := by
  unfold step takeTurn
  split
  · rename_i h
    obtain ⟨cfg, enc, dec, outq, rstSeen, input, turns, popped⟩ := s
    subst h
    rfl
  · rename_i h
    simp [h]

/-- Everything the block's turn can do when it answers a next state: idle, hold, or perform the head command. -/
theorem blockTurn_cases {s t : State} (h : blockTurn s = .next t) :
    (s.input = [] ∧ t = s) ∨
    (∃ C rest, s.input = C :: rest ∧ s.rstSeen = true ∧ unitsWf s = true ∧ accept s C = false ∧ t = s) ∨
    (∃ C rest, s.input = C :: rest ∧ s.rstSeen = true ∧ unitsWf s = true ∧ accept s C = true ∧
      t = { s with
        input := rest
        enc := encAfter (decodeCmd C) s.enc
        dec := decAfter s.cfg (decodeCmd C) s.dec
        outq := s.outq ++ emits s.cfg s.enc s.dec (decodeCmd C) }) := by
  unfold blockTurn at h
  split at h
  · rename_i hi
    cases h
    exact .inl ⟨hi, rfl⟩
  · rename_i C rest hi
    split at h
    · rename_i hr
      split at h
      · rename_i hw
        split at h
        · rename_i ha
          rw [perform_eq] at h
          cases h
          exact .inr (.inr ⟨C, rest, hi, hr, hw, ha, rfl⟩)
        · rename_i ha
          cases h
          exact .inr (.inl ⟨C, rest, hi, hr, hw, by simpa using ha, rfl⟩)
      · cases h
    · cases h

/-- An accepted head command is consumed and performed. -/
theorem blockTurn_accepts {s : State} {C : CmdWord} {rest : List CmdWord} (hi : s.input = C :: rest)
    (hr : s.rstSeen = true) (hw : unitsWf s = true) (ha : accept s C = true) :
    blockTurn s = perform (decodeCmd C) { s with input := rest } := by
  simp [blockTurn, hi, hr, hw, ha]

/-- A head command that is not accepted is held. -/
theorem blockTurn_holds {s : State} {C : CmdWord} {rest : List CmdWord} (hi : s.input = C :: rest)
    (hr : s.rstSeen = true) (hw : unitsWf s = true) (ha : accept s C = false) : blockTurn s = .next s := by
  simp [blockTurn, hi, hr, hw, ha]

/-- The block's turn never ends in a fault, and refuses only before the first reset or with ill-formed units. -/
theorem blockTurn_completes {s : State} (hr : s.rstSeen = true) (hw : unitsWf s = true) : ∃ t, blockTurn s = .next t := by
  unfold blockTurn
  split
  · exact ⟨_, rfl⟩
  · rw [if_pos hr, if_pos hw]
    split
    · rw [perform_eq]
      exact ⟨_, rfl⟩
    · exact ⟨_, rfl⟩

/-- Everything a pop can do when it answers a next state. -/
theorem hostPop_cases {s t : State} (h : hostPop s = .next t) :
    s.rstSeen = true ∧
    ((s.outq = [] ∧ t = s) ∨
     ∃ w ws, s.outq = w :: ws ∧ producible w = true ∧ t = { s with outq := ws, popped := s.popped ++ [w] }) := by
  unfold hostPop at h
  split at h
  · rename_i hr
    refine ⟨hr, ?_⟩
    split at h
    · rename_i ho
      cases h
      exact .inl ⟨ho, rfl⟩
    · rename_i w ws ho
      split at h
      · rename_i hp
        cases h
        exact .inr ⟨w, ws, ho, hp, rfl⟩
      · cases h
  · cases h

/-- Everything a step can do when it answers a next state. -/
theorem step_cases {s t : State} (h : step s = .next t) :
    let s₀ := { s with turns := s.turns.tail }
    (s.turns.headD .block = .block ∧ blockTurn s₀ = .next t) ∨
    (∃ C, s.turns.headD .block = .push C ∧ t = hostPush C s₀) ∨
    (s.turns.headD .block = .pop ∧ hostPop s₀ = .next t) ∨
    (s.turns.headD .block = .reset ∧ t = assertReset s₀) := by
  rw [step_eq_doTurn] at h
  intro s₀
  cases ht : s.turns.headD .block with
  | block => exact .inl ⟨rfl, by rwa [ht] at h⟩
  | push C => rw [ht] at h; cases h; exact .inr (.inl ⟨C, rfl, rfl⟩)
  | pop => exact .inr (.inr (.inl ⟨rfl, by rwa [ht] at h⟩))
  | reset => rw [ht] at h; cases h; exact .inr (.inr (.inr ⟨rfl, rfl⟩))

/-- Every command fits an empty queue: `MAXOUT` is at most 9 (30_encoding.md R69). -/
theorem maxOut_le_nine (d : Decoded) : maxOut d ≤ 9 := by
  cases d with
  | cmd i => cases i <;> simp [maxOut]
  | illegal op => simp [maxOut]
  | badOperand op => simp [maxOut]

end Sys2Proof.Machine
end

