-- ==== Sys2Proof/Laws/Instances.lean ====
section
/-!
SUPPORT. Several instances: the state of an instance and its own part, and everything a step of one instance can do.
-/
namespace Sys2Proof.Machine

@[simp] theorem withConfig_cfg (o : OwnState) (cfg : Config) : (o.withConfig cfg).cfg = cfg := rfl
@[simp] theorem ownPart_withConfig (o : OwnState) (cfg : Config) : (o.withConfig cfg).ownPart = o := rfl
@[simp] theorem withConfig_ownPart (s : State) : s.ownPart.withConfig s.cfg = s := rfl

/-- The states of the instances after the own part at place `k` is written. -/
theorem stateAt_set (sys : Instances) (k j : Nat) (o : OwnState) :
    ({ sys with own := sys.own.set k o } : Instances).stateAt j =
      if k = j then (sys.stateAt j).map fun _ => o.withConfig sys.cfg else sys.stateAt j := by
  unfold Instances.stateAt
  by_cases h : k = j
  · subst h
    by_cases hk : k < sys.own.length
    · simp [hk]
    · simp [Nat.not_lt.mp hk]
  · simp [h]

/-- Everything a step of the instance at place `k` can do when it answers next instances. -/
theorem stepInstance_cases {k : Nat} {sys sys' : Instances} (h : stepInstance k sys = .next sys') :
    (sys.stateAt k = none ∧ sys' = sys) ∨
    ∃ s t, sys.stateAt k = some s ∧ step s = .next t ∧ sys' = { sys with own := sys.own.set k t.ownPart } := by
  unfold stepInstance at h
  split at h
  · rename_i hk
    cases h
    exact .inl ⟨hk, rfl⟩
  · rename_i s hk
    split at h
    · rename_i t ht
      cases h
      exact .inr ⟨s, t, hk, ht, rfl⟩
    · cases h
    · cases h

end Sys2Proof.Machine
end

