-- ==== Sys2Proof/Laws/PerInstr.lean ====
section
/-!
SUPPORT. Laws of the instructions as syntax, one lemma per constructor: the encoded word of an instruction has the fixed
bits of its row of the opcode map (30_encoding.md R58).
-/
namespace Sys2Proof.Laws.SpellsItsRow

/-- The word of `i` spells a row of the opcode map that bears the mnemonic of `i`. -/
def Statement (i : Instr) : Prop :=
  ∃ r ∈ opcodeRows, r.mnemonic = mnemonicOf i ∧ r.spells (encode i) = true

theorem nop : Statement .nop := ⟨⟨0x0, "NOP", 0x00000, 0xFFFFF⟩, by simp [opcodeRows], rfl, by decide⟩

theorem encClear : Statement .encClear := ⟨⟨0x1, "ENC_CLEAR", 0x10000, 0xFFFFF⟩, by simp [opcodeRows], rfl, by decide⟩

theorem encByte (byte : Byte) : Statement (.encByte byte) := by
  refine ⟨⟨0x2, "ENC_BYTE", 0x20000, 0xFFF00⟩, by simp [opcodeRows], rfl, ?_⟩
  revert byte
  decide +kernel

theorem encEnd : Statement .encEnd := ⟨⟨0x3, "ENC_END", 0x30000, 0xFFFFF⟩, by simp [opcodeRows], rfl, by decide⟩

theorem decClear : Statement .decClear := ⟨⟨0x4, "DEC_CLEAR", 0x40000, 0xFFFFF⟩, by simp [opcodeRows], rfl, by decide⟩

/-- Form C16 has no reserved bit: the mask keeps the opcode alone. -/
theorem spells_of_op {op : Opcode} {m : String} (ch : Character) :
    OpcodeRow.spells ⟨op, m, cmdWord op 0, 0xF0000⟩ (cmdWord op ch) = true := by
  simp only [OpcodeRow.spells, beq_iff_eq]
  apply BitVec.eq_of_getLsbD_eq
  intro i hi
  have hmask : (0xF0000 : CmdWord) = 0xF#4 ++ 0#16 := by decide
  rw [hmask]
  simp only [cmdWord, BitVec.getLsbD_and, BitVec.getLsbD_append]
  by_cases h : i < 16
  · simp [h]
  · have : BitVec.getLsbD 0xF#4 (i - 16) = true := by
      have : i - 16 = 0 ∨ i - 16 = 1 ∨ i - 16 = 2 ∨ i - 16 = 3 := by omega
      rcases this with h | h | h | h <;> rw [h] <;> decide
    simp [h, this]

theorem decChar (ch : Character) : Statement (.decChar ch) :=
  ⟨⟨0x5, "DEC_CHAR", 0x50000, 0xF0000⟩, by simp [opcodeRows], rfl, spells_of_op ch⟩

theorem decEnd : Statement .decEnd := ⟨⟨0x6, "DEC_END", 0x60000, 0xFFFFF⟩, by simp [opcodeRows], rfl, by decide⟩

theorem mapVal (val : SymVal) : Statement (.mapVal val) := by
  refine ⟨⟨0x7, "MAP_VAL", 0x70000, 0xFFFE0⟩, by simp [opcodeRows], rfl, ?_⟩
  revert val
  decide +kernel

theorem mapSym (ch : Character) : Statement (.mapSym ch) :=
  ⟨⟨0x8, "MAP_SYM", 0x80000, 0xF0000⟩, by simp [opcodeRows], rfl, spells_of_op ch⟩

theorem stripChar (ch : Character) : Statement (.stripChar ch) :=
  ⟨⟨0x9, "STRIP_CHAR", 0x90000, 0xF0000⟩, by simp [opcodeRows], rfl, spells_of_op ch⟩

end Sys2Proof.Laws.SpellsItsRow
end

