-- ==== Sys2Proof/Tests/Slice0.lean ====
section
/-!
SUPPORT. Small tests. Expected results are those of spec/95_test_vectors.md (the id stands in the comment) or worked out by
hand from the rule named; the last part shows, for each statement with hypotheses, a concrete case that meets them.
-/
set_option Elab.async false

namespace Sys2Proof.Tests

open Sys2Proof.Machine

/-! ### Well-formedness: each check refuses an ill-formed term (30_encoding.md R70, R71; 00_scope.md R7, R8) -/

theorem test_wf_refuses_byte_256 : (AsmLine.encByte 256).wf = false := by decide
theorem test_wf_takes_byte_255 : (AsmLine.encByte 255).wf = true := by decide
theorem test_wf_refuses_val_32 : (AsmLine.mapVal 32).wf = false := by decide
theorem test_wf_takes_val_31 : (AsmLine.mapVal 31).wf = true := by decide
theorem test_wf_refuses_dec_char : (AsmLine.decChar 0x10000).wf = false := by decide
theorem test_wf_refuses_map_sym : (AsmLine.mapSym 0x10000).wf = false := by decide
theorem test_wf_refuses_strip_char : (AsmLine.stripChar 0x10000).wf = false := by decide
theorem test_wf_refuses_word : (AsmLine.word 0x100000).wf = false := by decide
theorem test_wf_refuses_encode_bytes : (AsmLine.encodeBytes [0, 256]).wf = false := by decide
theorem test_wf_refuses_encode_text : (AsmLine.encodeText [0x100]).wf = false := by decide
theorem test_wf_refuses_decode_text : (AsmLine.decodeText [0x41, 0x10000]).wf = false := by decide
theorem test_wf_refuses_strip_text : (AsmLine.stripText [0x10000]).wf = false := by decide

theorem test_config_refuses_repeated_symbol :
    (ConfigData.build? ⟨rfc4648Alpha.set 3 0x0041, rfc4648Pad, 9⟩) = none := by decide +kernel
theorem test_config_refuses_pad_in_alphabet : (ConfigData.build? ⟨rfc4648Alpha, 0x0041, 9⟩) = none := by decide +kernel
theorem test_config_refuses_depth_8 : (ConfigData.build? ⟨rfc4648Alpha, rfc4648Pad, 8⟩) = none := by decide +kernel
theorem test_config_takes_the_default :
    (ConfigData.build? ⟨rfc4648Alpha, rfc4648Pad, 9⟩) = some Config.default := by decide +kernel

/-! ### Decoding: words written out from 30_encoding.md R55-R58, OP then D -/

theorem test_decode_nop : decodeCmd 0b0000_0000000000000000#20 = .cmd .nop := by decide
theorem test_decode_enc_clear : decodeCmd 0b0001_0000000000000000#20 = .cmd .encClear := by decide
theorem test_decode_enc_byte : decodeCmd 0b0010_00000000_01100110#20 = .cmd (.encByte 0x66) := by decide
theorem test_decode_enc_end : decodeCmd 0b0011_0000000000000000#20 = .cmd .encEnd := by decide
theorem test_decode_dec_clear : decodeCmd 0b0100_0000000000000000#20 = .cmd .decClear := by decide
theorem test_decode_dec_char : decodeCmd 0b0101_0000000101000001#20 = .cmd (.decChar 0x0141) := by decide
theorem test_decode_dec_end : decodeCmd 0b0110_0000000000000000#20 = .cmd .decEnd := by decide
theorem test_decode_map_val : decodeCmd 0b0111_00000000000_11001#20 = .cmd (.mapVal 25) := by decide
theorem test_decode_map_sym : decodeCmd 0b1000_1111111111111110#20 = .cmd (.mapSym 0xFFFE) := by decide
theorem test_decode_strip_char : decodeCmd 0b1001_0000000000111101#20 = .cmd (.stripChar 0x3D) := by decide
theorem test_decode_reserved_opcode : decodeCmd 0xA0001 = .illegal 0xA ∧ decodeCmd 0xFFFFF = .illegal 0xF := by decide
theorem test_decode_bad_operand :  -- V-X1 to V-X7
    [0x00001, 0x10001, 0x20100, 0x38000, 0x40001, 0x60001, 0x70020].map decodeCmd =
      [.badOperand 0, .badOperand 1, .badOperand 2, .badOperand 3, .badOperand 4, .badOperand 6, .badOperand 7] := by
  decide
theorem test_decode_table_word_24_bits : decodeTableWord 24 0x2006F = some (.encByte 0x6F) := by decide
theorem test_decode_table_word_rejects : decodeTableWord 24 0x12006F = none ∧ decodeTableWord 24 0xA0000 = none := by decide

/-! ### One step of a small state -/

/-- After reset, with the encoder fields given. -/
def encState (acc : BitVec 4) (nbits nsym : BitVec 3) : State := { State.reset with enc := ⟨acc, nbits, nsym⟩ }

/-- After reset, with the decoder fields given. -/
def decState (acc : BitVec 7) (nbits : BitVec 3) (err : Bool) : State := { State.reset with dec := ⟨acc, nbits, err⟩ }

/-- The units and `OUTQ` a step leaves. -/
def unitsAndQueue : Outcome → Option (EncUnit × DecUnit × List OutWord)
  | .next t => some (t.enc, t.dec, t.outq)
  | .fault _ => none
  | .refused _ => none

/-- The state a step answers, if it answers one. -/
def nextOf {σ : Type} : Host.Outcome σ Fault Refusal → Option σ
  | .next t => some t
  | .fault _ => none
  | .refused _ => none

/-- One command word presented to `s`. -/
def stepOn (s : State) (w : Nat) : Outcome := step (s.withFetchWord 24 w)

theorem test_nop : nextOf (stepOn (encState 6 3 1) 0x00000) = some (encState 6 3 1) := by decide  -- V-C1
theorem test_enc_clear :  -- V-E27
    unitsAndQueue (stepOn (encState 6 3 1) 0x10000) = some (⟨0, 0, 0⟩, .empty, []) := by decide
theorem test_enc_byte_two_symbols :  -- V-E9
    unitsAndQueue (stepOn (encState 15 4 4) 0x20062) = some (⟨2, 2, 6⟩, .empty, [0x00036, 0x00059]) := by decide +kernel
theorem test_enc_byte_one_symbol :  -- V-E8
    unitsAndQueue (stepOn (encState 1 1 3) 0x2006F) = some (⟨15, 4, 4⟩, .empty, [0x00057]) := by decide +kernel
theorem test_enc_byte_nsym_wraps :  -- V-E10
    unitsAndQueue (stepOn (encState 2 2 6) 0x20061) = some (⟨0, 0, 0⟩, .empty, [0x00054, 0x00042]) := by decide +kernel
theorem test_enc_end_nine_words :  -- V-E16
    unitsAndQueue (stepOn (encState 1 1 0) 0x30000) = some (⟨0, 0, 0⟩, .empty,
      [0x00051, 0x0003D, 0x0003D, 0x0003D, 0x0003D, 0x0003D, 0x0003D, 0x0003D, 0x30030]) := by decide +kernel
theorem test_enc_end_after_foo :  -- V-E14
    unitsAndQueue (stepOn (encState 15 4 4) 0x30000) = some (⟨0, 0, 0⟩, .empty,
      [0x00036, 0x0003D, 0x0003D, 0x0003D, 0x30030]) := by decide +kernel
theorem test_dec_clear :  -- V-D23
    unitsAndQueue (stepOn (decState 12 5 true) 0x40000) = some (.empty, ⟨0, 0, false⟩, []) := by decide
theorem test_dec_char_emits :  -- V-D10
    unitsAndQueue (stepOn (decState 55 7 false) 0x50057) = some (.empty, ⟨6, 4, false⟩, [0x1006F]) := by decide +kernel
theorem test_dec_char_invalid_16_bit :  -- V-D14, here with pending bits
    unitsAndQueue (stepOn (decState 12 5 false) 0x50141) = some (.empty, ⟨12, 5, true⟩, []) := by decide +kernel
theorem test_dec_char_pad :  -- V-D11
    unitsAndQueue (stepOn (decState 12 5 false) 0x5003D) = some (.empty, ⟨12, 5, false⟩, []) := by decide +kernel
theorem test_dec_char_suppressed :  -- V-D17
    unitsAndQueue (stepOn (decState 12 5 true) 0x50059) = some (.empty, ⟨12, 5, true⟩, []) := by decide +kernel
theorem test_dec_end_invalid :  -- V-D21
    unitsAndQueue (stepOn (decState 12 5 true) 0x60000) = some (.empty, ⟨0, 0, false⟩, [0x30061]) := by decide
theorem test_dec_end_drops_bits :  -- V-D20
    unitsAndQueue (stepOn (decState 1 2 false) 0x60000) = some (.empty, ⟨0, 0, false⟩, [0x30060]) := by decide
theorem test_map_val :  -- V-M1
    unitsAndQueue (stepOn State.reset 0x7001A) = some (.empty, .empty, [0x00032]) := by decide +kernel
theorem test_map_sym_value :  -- V-M5
    unitsAndQueue (stepOn State.reset 0x80032) = some (.empty, .empty, [0x2001A]) := by decide +kernel
theorem test_map_sym_invalid_keeps_dec_err :  -- V-M11
    unitsAndQueue (stepOn (decState 12 5 false) 0x80031) = some (.empty, ⟨12, 5, false⟩, [0x20040]) := by decide +kernel
theorem test_strip_char_passes :  -- V-S4
    unitsAndQueue (stepOn State.reset 0x9FFFF) = some (.empty, .empty, [0x0FFFF]) := by decide +kernel
theorem test_strip_char_pad :  -- V-S2
    unitsAndQueue (stepOn State.reset 0x9003D) = some (.empty, .empty, []) := by decide +kernel
theorem test_illegal_opcode :  -- V-C4
    unitsAndQueue (stepOn (encState 6 3 1) 0xA1234) = some (⟨6, 3, 1⟩, .empty, [0x300A2]) := by decide
theorem test_bad_operand_keeps_the_frame :  -- V-E29
    unitsAndQueue (stepOn (encState 6 3 1) 0x20166) = some (⟨6, 3, 1⟩, .empty, [0x30023]) := by decide

/-- After reset, with `n` words in `OUTQ` and the head command given. -/
def fullState (n : Nat) (C : CmdWord) : State :=
  { State.reset with outq := List.replicate n (symWord 0x41), input := [C] }

theorem test_hold_enc_byte : nextOf (step (fullState 8 0x20000)) = some (fullState 8 0x20000) := by decide  -- V-H5
theorem test_hold_enc_end : nextOf (step (fullState 1 0x30000)) = some (fullState 1 0x30000) := by decide  -- V-H6
theorem test_hold_illegal : nextOf (step (fullState 9 0xA0000)) = some (fullState 9 0xA0000) := by decide  -- V-H8
theorem test_nop_needs_no_room : nextOf (step (fullState 9 0x00000)) = some { fullState 9 0 with input := [] } := by decide  -- V-H9
theorem test_refused_before_reset :  -- V-H1
    step { State.powerOn Config.default with input := [0x00000] } = .refused .beforeReset := rfl
theorem test_reset_empties :  -- V-H2
    nextOf (step { fullState 5 0x00000 with enc := ⟨6, 3, 1⟩, dec := ⟨12, 5, true⟩, turns := [.reset] }) =
      some { State.reset with input := [0x00000] } := by decide
theorem test_pop_takes_the_head :
    nextOf (step { State.reset with outq := [0x0004D, 0x00059], turns := [.pop] }) =
      some { State.reset with outq := [0x00059], popped := [0x0004D] } := by decide
theorem test_pop_of_a_never_produced_word :
    step { State.reset with outq := [0x30034], turns := [.pop] } = .fault (.neverProducedWord 0x30034) := by rfl

/-! ### Reference functions, assembler and listing -/

theorem test_encode_fooba :  -- V-A6: "MZXW6YTB"
    refEncode Config.default [0x66, 0x6F, 0x6F, 0x62, 0x61] = [0x4D, 0x5A, 0x58, 0x57, 0x36, 0x59, 0x54, 0x42] := by
  decide +kernel
theorem test_encode_f :  -- V-A2: "MY======"
    refEncode Config.default [0x66] = [0x4D, 0x59, 0x3D, 0x3D, 0x3D, 0x3D, 0x3D, 0x3D] := by decide +kernel
theorem test_decode_pad_inside : refDecode Config.default [0x4D, 0x3D, 0x59] = .ok [0x66] := by decide +kernel  -- V-D29
theorem test_decode_error : refDecode Config.default [0x4D, 0x5A, 0x31] = .decodeError := by decide +kernel  -- V-D40
theorem test_host_drops_a_failed_frame :  -- program P3
    decFrames [] (traceOf [0x5004D, 0x5005A, 0x50031, 0x50057, 0x60000, 0x5004D, 0x50059, 0x60000] State.reset) =
      [.decodeError, .ok [0x66]] := by decide +kernel
theorem test_host_reads_aborted_frames :  -- program P5
    encFrames .fresh (traceOf [0x20066, 0x10000, 0x20066, 0x30000] State.reset) =
      [.text [0x4D, 0x59, 0x3D, 0x3D, 0x3D, 0x3D, 0x3D, 0x3D]] := by decide +kernel
theorem test_assemble_lines :  -- 30_encoding.md R73
    ["ENC_BYTE 0x66", "DEC_CHAR '='", "MAP_VAL 31 ; last", ".word 0xA0000"].map assembleLine =
      [some [0x20066], some [0x5003D], some [0x7001F], some [0xA0000]] := by decide +kernel
theorem test_assemble_refuses : ["ENC_BYTE 256", "MAP_VAL 0x20", "NOP 1", "FOO", "ENCODE [1 2, 3]"].map assembleLine =
    [none, none, none, none, none] := by decide +kernel
theorem test_assemble_encode :  -- V-A3
    assembleLine "ENCODE [0x66, 0x6F]" = some [0x20066, 0x2006F, 0x30000] ∧
    assembleLine "STRIP \"M=\"" = some [0x9004D, 0x9003D] := by decide +kernel
theorem test_listing_text :  -- 30_encoding.md R73
    [0x2000C, 0x20020, 0x30061, 0x300A2].map (fun w => (readWord w).map listingText) =
      [some "VAL 12", some "VAL PAD", some "STATUS DEC_END INVALID_SYMBOL", some "STATUS 0xA ILLEGAL_OPCODE"] ∧
    listingHex (symWord 0x4D) = "0x0004D" ∧ listingHex (statusWord 0x3 .ok) = "0x30030" := by
  decide +kernel
/-- Two default instances after reset, the word `C` pushed to the first and the word `D` to the second. -/
def twoInstances (C D : CmdWord) : Instances where
  cfg := Config.default
  own := [{ State.reset with input := [C] }.ownPart, { State.reset with input := [D] }.ownPart]

theorem test_instances_are_apart :
    nextOf (stepInstance 1 (twoInstances 0 0x60000)) =
      some { twoInstances 0 0 with
        own := [{ State.reset with input := [0] }.ownPart, { State.reset with outq := [0x30060] }.ownPart] } := by decide

/-! ### Each statement with hypotheses has a case that meets them -/

theorem witness_EncodeUndoesDecode : decodeCmd 0x200FF = .cmd (.encByte 0xFF) := by decide
theorem witness_OpcodeMapRowsDecideEveryWord :
    opcodeRows.any (fun r => r.spells 0x7001F) = true ∧ decodeCmd 0x7001F = .cmd (.mapVal 31) ∧
    ((opOf 0x90000).toNat ≤ 9 ∧ (opOf 0x70020).toNat ≤ 9 ∧ ∀ r ∈ opcodeRows, r.spells 0x70020 = false) ∧
    10 ≤ (opOf 0xA0000).toNat := by decide
theorem witness_ReservedOpcodesReportIllegal : 0xA ≤ (opOf 0xA0000).toNat ∧ decodeCmd 0xF0000 = .illegal 0xF ∧
    ¬ 0xA ≤ (opOf 0x9FFFF).toNat := by decide
theorem witness_ReservedOperandBitsReportBadOperand :
    decodeCmd 0x00001 = .badOperand 0 ∧ decodeCmd 0x20100 = .badOperand 2 ∧ decodeCmd 0x70020 = .badOperand 7 ∧
    (dataOf 0x200FF).toNat = 255 ∧ (dataOf 0x7001F).toNat = 31 := by decide
theorem witness_ListingReadsWordsBack :
    readWord 0x30061 = some (.status 0x6 .invalidSymbol) ∧ statusProduced 0x6 .invalidSymbol = true ∧
    producible 0x10100 = false ∧ producible 0x20021 = false ∧ producible 0x20020 = true ∧ producible 0x20040 = true ∧
    producible 0x30034 = false ∧ 0x0004D ∈ emittedBy 0x7000C State.reset := by decide +kernel
theorem witness_AssemblerExpandsPseudoInstructions :
    (AsmLine.encodeText [0x100]).wf = false ∧ (∃ n ∈ [0x100], 0xFF < n) ∧ (AsmLine.encodeText [0xFF]).wf = true := by decide

theorem witness_StepPerformsTheHeadWord :
    let s := fullState 7 0x2006F
    let t := { fullState 8 0xA0000 with turns := [.block, .pop] }
    let u := fullState 8 0x20100
    (s.rstSeen = true ∧ unitsWf s = true ∧ s.input = [0x2006F] ∧ accept s 0x2006F = true ∧ s.turns = [] ∧
      decodeCmd 0x2006F = .cmd (.encByte 0x6F)) ∧
    (t.rstSeen = true ∧ unitsWf t = true ∧ t.input = [0xA0000] ∧ accept t 0xA0000 = true ∧ t.turns = [.block, .pop] ∧
      decodeCmd 0xA0000 = .illegal 0xA) ∧
    (u.rstSeen = true ∧ unitsWf u = true ∧ u.input = [0x20100] ∧ accept u 0x20100 = true ∧ u.turns = [] ∧
      decodeCmd 0x20100 = .badOperand 0x2) := by decide
theorem witness_StepPerformsThePresentedTableWord :
    State.reset.rstSeen = true ∧ unitsWf State.reset = true ∧ decodeTableWord 24 0x30000 = some .encEnd ∧
    hasRoom State.reset (.cmd .encEnd) = true := by decide
theorem witness_HoldUntilThereIsRoom :
    let s := fullState 1 0x30000
    let b := { s with turns := [.block] }
    let p := { s with turns := [.push 0] }
    (s.rstSeen = true ∧ unitsWf s = true ∧ s.input = [0x30000] ∧ accept s 0x30000 = false ∧ s.turns = []) ∧
    (b.rstSeen = true ∧ unitsWf b = true ∧ b.input = [0x30000] ∧ accept b 0x30000 = false ∧ b.turns = [.block]) ∧
    (p.rstSeen = true ∧ unitsWf p = true ∧ p.input = [0x30000] ∧ accept p 0x30000 = false ∧ p.turns = [.push 0] ∧
      nextOf (step p) = some { s with input := [0x30000, 0] }) ∧
    (State.reset.rstSeen = true ∧ State.reset.outq = [] ∧ accept State.reset 0x30000 = true) := by decide
theorem witness_CommandsBeforeResetAreRefused :
    let s := { State.powerOn Config.default with input := [0x60000] }
    s.rstSeen = false ∧ s.input = [0x60000] ∧ s.turns = [] := by decide
theorem witness_IllFormedUnitsAreRefused :
    let s := { encState 0 5 0 with input := [0] }
    let t := { encState 8 3 0 with input := [0], turns := [.block, .pop] }
    let u := { decState 1 0 false with input := [0] }
    (s.rstSeen = true ∧ s.input = [0] ∧ s.turns = [] ∧ 4 < s.enc.nbits.toNat) ∧
    (t.rstSeen = true ∧ t.input = [0] ∧ t.turns = .block :: [.pop] ∧ 2 ^ t.enc.nbits.toNat ≤ t.enc.acc.toNat) ∧
    (u.rstSeen = true ∧ u.input = [0] ∧ u.turns = [] ∧ 2 ^ u.dec.nbits.toNat ≤ u.dec.acc.toNat) := by decide
theorem witness_ResetClearsUnitsAndQueue :
    { fullState 5 0x30000 with turns := [.reset, .block] }.turns = .reset :: [.block] := by decide
theorem witness_HostPushesAndPops :
    let e := { State.reset with turns := [.pop] }
    let f := { e with outq := [0x0004D] }
    let g := { e with outq := [0x30034] }
    ({ State.reset with turns := [.push 0x60000] }).turns = [.push 0x60000] ∧
    (e.turns = [.pop] ∧ e.rstSeen = true ∧ e.outq = []) ∧
    (f.turns = [.pop] ∧ f.rstSeen = true ∧ f.outq = [0x0004D] ∧ producible 0x0004D = true) ∧
    (g.turns = [.pop] ∧ g.rstSeen = true ∧ g.outq = [0x30034] ∧ producible 0x30034 = false) := by decide
theorem witness_OutputBudgetIsTheMaximum : encWf (encState 15 4 7).enc = true ∧ encWf (encState 0 0 0).enc = true ∧
    decodeCmd 0xB0000 = .illegal 0xB ∧ decodeCmd 0x00001 = .badOperand 0 := by decide
theorem witness_NopDoesNothing : (1 : BitVec 16) ≠ 0 ∧ (fullState 9 0).rstSeen = true ∧
    (fullState 9 0).outq.length = (fullState 9 0).cfg.outDepth := by decide
theorem witness_EncClearEmptiesTheEncoder : (0x8000 : BitVec 16) ≠ 0 := by decide
theorem witness_DecClearEmptiesTheDecoder : (0x0001 : BitVec 16) ≠ 0 := by decide
theorem witness_DecEndReportsTheFrame : (0xFFFF : BitVec 16) ≠ 0 := by decide
theorem witness_EncByteEmitsEveryCompleteGroup :
    (0x0100 : BitVec 16).extractLsb' 8 8 ≠ 0 ∧
    (encWf (encState 1 1 0).enc = true ∧ (encState 1 1 0).enc.nbits.toNat + 8 = 9) ∧
    (encWf (encState 3 2 0).enc = true ∧ (encState 3 2 0).enc.nbits.toNat + 8 = 10) := by decide
theorem witness_EncEndFillsPadsAndReports :
    (encWf (encState 0 0 7).enc = true ∧ (encState 0 0 7).enc.nbits.toNat = 0) ∧ encWf (encState 15 4 7).enc = true := by
  decide
theorem witness_DecCharSkipsMarksOrEmits :
    (decState 12 5 true).dec.err = true ∧
    ((decState 12 5 false).dec.err = false ∧ (0x3D : Character) = State.reset.cfg.pad) ∧
    ((0x31 : Character) ≠ State.reset.cfg.pad ∧ inv State.reset.cfg 0x31 = none) ∧
    (decWf (decState 3 2 false).dec = true ∧ (decState 3 2 false).dec.nbits.toNat + 5 = 7) ∧
    (decWf (decState 7 3 false).dec = true ∧ (decState 7 3 false).dec.nbits.toNat + 5 = 8) ∧
    inv State.reset.cfg 0x37 = some 31 ∧ (0x61 ≤ (0x61 : Character).toNat ∧ 0x7F < (0x80 : Character).toNat) := by
  decide +kernel
theorem witness_MapValGivesTheSymbol : (0x0020 : BitVec 16).extractLsb' 5 11 ≠ 0 := by decide
theorem witness_MapSymClassifiesACharacter :
    (0x0141 : Character) ≠ State.reset.cfg.pad ∧ ∀ v : SymVal, State.reset.cfg.alpha[v.toFin] ≠ 0x0141 := by decide +kernel

theorem witness_EncoderCommandsLeaveTheRest :
    unitsAndQueue (exec (.encByte 0x66) (decState 12 5 false)) = some (⟨6, 3, 1⟩, ⟨12, 5, false⟩, [0x0004D]) ∧
    unitsAndQueue (exec .encClear (encState 6 3 1)) = some (.empty, .empty, []) ∧
    unitsAndQueue (exec .encEnd State.reset) = some (.empty, .empty, [0x30030]) := by decide +kernel
theorem witness_DecoderCommandsLeaveTheRest :
    unitsAndQueue (exec (.decChar 0x4D) (encState 6 3 1)) = some (⟨6, 3, 1⟩, ⟨12, 5, false⟩, []) ∧
    unitsAndQueue (exec .decClear (decState 12 5 true)) = some (.empty, .empty, []) ∧
    unitsAndQueue (exec .decEnd (decState 12 5 true)) = some (.empty, .empty, [0x30061]) := by decide +kernel
theorem witness_MapperStripAndNopLeaveTheUnits :
    unitsAndQueue (exec .nop (encState 6 3 1)) = some (⟨6, 3, 1⟩, .empty, []) ∧
    unitsAndQueue (exec (.mapVal 0) State.reset) = some (.empty, .empty, [0x00041]) ∧
    unitsAndQueue (exec (.mapSym 0x41) State.reset) = some (.empty, .empty, [0x20000]) ∧
    unitsAndQueue (exec (.stripChar 0x41) State.reset) = some (.empty, .empty, [0x00041]) := by decide +kernel
theorem witness_ConfigurationIsNeverWritten :
    nextOf (step { State.reset with input := [0] }) = some State.reset ∧ State.reset.rstSeen = true := by decide
theorem witness_InvalidSymbolHasOneSource :
    let s := { decState 12 5 false with input := [0x50031] }
    (nextOf (step s) = some (decState 12 5 true) ∧ s.dec.err = false ∧ (decState 12 5 true).dec.err = true) ∧
    statusWord 0x6 .invalidSymbol ∈ emittedBy 0x60000 (decState 12 5 true) ∧
    ((0x31 : Character) ≠ s.cfg.pad ∧ inv s.cfg 0x31 = none ∧
      unitsAndQueue (exec (.mapSym 0x31) s) = some (.empty, ⟨12, 5, false⟩, [0x20040])) ∧
    unitsAndQueue (perform (decodeCmd 0xA0000) s) = some (.empty, ⟨12, 5, false⟩, [0x300A2]) := by decide +kernel
theorem witness_InverseMapAndAcceptedCodes : inv Config.default 0x41 = some 0 ∧ inv Config.default 0x5A = some 25 ∧
    inv Config.default 0x32 = some 26 ∧ inv Config.default 0x37 = some 31 := by decide
theorem witness_EveryStepKeepsTheInvariant :
    let s := { fullState 8 0x50037 with dec := ⟨0x7F, 7, false⟩ }
    StateInv s = true ∧ unitsAndQueue (step s) =
      some (.empty, ⟨0xF, 4, false⟩, List.replicate 8 0x00041 ++ [0x100FF]) := by decide +kernel
theorem witness_ReachableUnitsMeetTheirInvariants :
    nextOf (runFor 2 (assertReset { State.powerOn Config.default with turns := [.push 0x20066] })) =
      some { encState 6 3 1 with outq := [0x0004D] } := by decide +kernel
theorem witness_EncoderKeepsItsPace :
    let s := { encState 15 4 4 with input := [0x20062] }
    StateInv s = true ∧ EncPaced s.enc = true ∧ encWf s.enc = true ∧
    unitsAndQueue (step s) = some (⟨2, 2, 6⟩, .empty, [0x00036, 0x00059]) := by decide +kernel
theorem witness_NoStepStopsAfterReset : StateInv (fullState 9 0x30000) = true ∧ (fullState 9 0x30000).rstSeen = true := by
  decide
theorem witness_PoppingLetsTheHeadCommandThrough :
    let s := { fullState 2 0x30000 with turns := [.pop, .pop, .block, .push 0] }
    StateInv s = true ∧ s.rstSeen = true ∧ s.input = [0x30000] ∧
    s.turns = List.replicate s.outq.length .pop ++ .block :: [.push 0] := by decide
theorem witness_EveryScheduleGivesTheSameWords :
    let s := { State.reset with turns := [.push 0x20066, .block, .pop, .reset], input := [0x00000] }
    .reset ∉ s.turns.take 3 ∧
      nextOf (runFor 3 s) = some { State.reset with turns := [.reset], input := [0x20066] } := by decide
theorem witness_EmittedWordsDependOnTableUnitsAndCommands :
    let s := { State.reset with cfg := { Config.default with outDepth := 12 }, outq := [0x0004D] }
    State.reset.cfg.alpha = s.cfg.alpha ∧ State.reset.cfg.pad = s.cfg.pad ∧ State.reset.enc = s.enc ∧
    State.reset.dec = s.dec ∧ State.reset ≠ s := by decide +kernel
theorem witness_InstancesDoNotDisturbEachOther :
    let sys := twoInstances 0x60000 0x50031
    let fails : State := { State.reset with outq := [0x30034], turns := [.pop] }
    let refuses : State := { State.powerOn Config.default with input := [0] }
    let odd : Instances := { sys with own := [fails.ownPart, refuses.ownPart] }
    (sys.stateAt 1 = some { State.reset with input := [0x50031] } ∧
      nextOf (step { State.reset with input := [0x50031] }) = some (decState 0 0 true)) ∧
    (nextOf (stepInstances [1, 0, 1] sys)).bind (fun sys' => sys'.stateAt 1) = some (decState 0 0 true) ∧
    (odd.stateAt 0 = some fails ∧ odd.stateAt 1 = some refuses) ∧
    step fails = .fault (.neverProducedWord 0x30034) ∧ step refuses = .refused .beforeReset :=
  ⟨by decide, by decide, by decide, rfl, rfl⟩
theorem witness_EncoderFrameGivesEncode :
    State.reset.enc = EncUnit.empty ∧
    [.decChar 0x4D, .encByte 0x66, .mapVal 3, .encEnd, .decEnd].filter isEncCmd =
      [(0x66 : Byte)].map Instr.encByte ++ [.encEnd] := by decide
theorem witness_DecoderFrameGivesDecode :
    State.reset.dec = DecUnit.empty ∧
    [.decChar 0x4D, .encByte 0x66, .decChar 0x31, .decEnd, .encEnd].filter isDecCmd =
      [(0x4D : Character), 0x31].map Instr.decChar ++ [.decEnd] ∧
    refDecode State.reset.cfg [0x4D, 0x31] = .decodeError ∧ refDecode State.reset.cfg [0x4D, 0x59] = .ok [0x66] := by
  decide +kernel
theorem witness_EncoderStateAfterBytes : State.reset.enc = EncUnit.empty := by decide
theorem witness_BlockRoundTrip : State.reset.enc = EncUnit.empty ∧ State.reset.dec = DecUnit.empty := by decide
theorem witness_EncodedLengthAndPadding : refEncode Config.default [] = [] := by decide +kernel
theorem witness_DecodeFailsOnlyOnForeignCharacters :
    ∃ c ∈ [(0x4D : Character), 0x31], c ≠ Config.default.pad ∧ inv Config.default c = none :=
  ⟨0x31, by decide, by decide⟩
theorem witness_DecoderByteRhythm :
    (State.reset.dec = DecUnit.empty ∧
      ∀ c ∈ [(0x4D : Character), 0x3D], c = State.reset.cfg.pad ∨ inv State.reset.cfg c ≠ none) ∧
    ((decState 0 2 false).dec.err = false ∧ inv State.reset.cfg 0x4D ≠ none ∧
      (decState 0 2 false).dec.nbits.toNat = (5 * (3 - 1)) % 8) := by
  simp only [List.mem_cons, List.not_mem_nil, or_false, forall_eq_or_imp, forall_eq]
  decide
theorem witness_FailedFrameIgnoresTheRest : (decState 12 5 true).dec.err = true := by decide
theorem witness_HostReadsWholeFrames :
    (State.reset.dec = DecUnit.empty ∧ [.decChar 0x4D, .encByte 0x66, .decEnd, .encEnd].filter isDecCmd =
      [(0x4D : Character)].map Instr.decChar ++ [.decEnd]) ∧
    (State.reset.enc = EncUnit.empty ∧ [.decChar 0x4D, .encByte 0x66, .decEnd, .encEnd].filter isEncCmd =
      [(0x66 : Byte)].map Instr.encByte ++ [.encEnd]) := by decide
theorem witness_RejectedByteIsLostFromItsFrame :
    State.reset.enc = EncUnit.empty ∧ 256 ≤ (0x0100 : BitVec 16).toNat := by decide
theorem witness_AbandonedAndReopenedFrames :
    State.reset.enc = EncUnit.empty ∧ State.reset.dec = DecUnit.empty ∧ (1 : BitVec 16) ≠ 0 := by decide

end Sys2Proof.Tests
end

section
/-!
PROOFS. Command and output words as numbers (00_scope.md R14): a word of two fields is the high one times a power of 2, plus
the low one.
-/
namespace Sys2Proof

/-- Two joined fields as a number: no bit of one overlaps the other. -/
theorem toNat_append_eq_add {m n : Nat} (x : BitVec m) (y : BitVec n) :
    (x ++ y).toNat = 2 ^ n * x.toNat + y.toNat := by
  rw [BitVec.toNat_append, ← Nat.shiftLeft_add_eq_or_of_lt y.isLt, Nat.shiftLeft_eq, Nat.mul_comm]

theorem toNat_cmdWord (op : Opcode) (D : BitVec 16) : (cmdWord op D).toNat = 0x10000 * op.toNat + D.toNat :=
  toNat_append_eq_add op D

end Sys2Proof

namespace Sys2Proof.Machine

/-- An output word is its two fields (30_encoding.md R60). -/
theorem tagOf_append_valueOf (w : OutWord) : tagOf w ++ valueOf w = w :=
  (BitVec.extractLsb'_append_extractLsb'_eq_extractLsb' rfl).trans BitVec.extractLsb'_eq_self

theorem toNat_symWord (c : Character) : (symWord c).toNat = c.toNat :=
  (toNat_append_eq_add 0#2 c).trans (by simp)

theorem toNat_byteWord (b : Byte) : (byteWord b).toNat = 0x10000 + b.toNat :=
  (toNat_append_eq_add (1#2 ++ 0#8) b).trans rfl

theorem toNat_valWord (x : BitVec 16) : (valWord x).toNat = 0x20000 + x.toNat :=
  toNat_append_eq_add 2#2 x

theorem toNat_statusWord (op : Opcode) (code : StatusCode) :
    (statusWord op code).toNat = 0x30000 + 16 * op.toNat + (statusBits code).toNat := by
  have hop := toNat_append_eq_add (3#2 ++ 0#8) op
  have hcode := toNat_append_eq_add (3#2 ++ 0#8 ++ op) (statusBits code)
  have htag : (3#2 ++ 0#8).toNat = 0x300 := rfl
  rw [hop, htag] at hcode
  exact hcode.trans (by omega)

/-- Settles O2: each word is a concatenation of fields, read as a number. -/
theorem outputWordConstructors : Obligations.OutputWordConstructors := by
  refine ⟨fun C => ?_, fun w => ?_, toNat_symWord, toNat_byteWord, toNat_valWord, toNat_statusWord, rfl, rfl, rfl, rfl⟩
  · rw [← toNat_cmdWord, cmdWord_opOf_dataOf]
  · calc w.toNat = (tagOf w ++ valueOf w).toNat := by rw [tagOf_append_valueOf]
      _ = 0x10000 * (tagOf w).toNat + (valueOf w).toNat := toNat_append_eq_add _ _

end Sys2Proof.Machine
end

section
/-!
PROOFS. The default alphabet in closed form (00_scope.md R9), from it `INV` on all 2^16 codes by `inv_eq_some_iff`, and the
codes the default table accepts (43_alphabet_mapper.md R106).
-/
namespace Sys2Proof.Machine

theorem toNat_symbolOf_default : ∀ v : SymVal,
    (symbolOf Config.default v).toNat = if v.toNat < 26 then 0x41 + v.toNat else 0x32 + (v.toNat - 26) := by
  decide

/-- `INV` of the default table in closed form (43_alphabet_mapper.md R106). -/
theorem inv_default (c : Character) : inv Config.default c =
    if 0x41 ≤ c.toNat ∧ c.toNat ≤ 0x5A then some (BitVec.ofNat 5 (c.toNat - 0x41))
    else if 0x32 ≤ c.toNat ∧ c.toNat ≤ 0x37 then some (BitVec.ofNat 5 (c.toNat - 0x32 + 26))
    else none := by
  split
  case isTrue hletter =>
    have hv : (BitVec.ofNat 5 (c.toNat - 0x41)).toNat = c.toNat - 0x41 := Nat.mod_eq_of_lt (by omega)
    rw [inv_eq_some_iff, ← BitVec.toNat_inj, toNat_symbolOf_default, hv, if_pos (by omega)]
    omega
  case isFalse hletter =>
    split
    case isTrue hdigit =>
      have hv : (BitVec.ofNat 5 (c.toNat - 0x32 + 26)).toNat = c.toNat - 0x32 + 26 := Nat.mod_eq_of_lt (by omega)
      rw [inv_eq_some_iff, ← BitVec.toNat_inj, toNat_symbolOf_default, hv, if_neg (by omega)]
      omega
    case isFalse hdigit =>
      rw [Option.eq_none_iff_forall_ne_some]
      intro v hv
      have hc := congrArg BitVec.toNat (inv_eq_some_iff.mp hv)
      rw [toNat_symbolOf_default] at hc
      split at hc <;> omega

/-- A character is accepted when it is the padding or a symbol (43_alphabet_mapper.md R106). -/
theorem classify_ne_invalid_iff {cfg : Config} {c : Character} :
    classify cfg c ≠ .invalid ↔ c = cfg.pad ∨ inv cfg c ≠ none := by
  obtain ⟨hp, hk⟩ | ⟨hp, hi, hk⟩ | ⟨v, hp, hi, hk⟩ := classify_cases cfg c
  · rw [hk]
    simp [hp]
  · simp [hk, hp, hi]
  · simp [hk, hp, hi]

/-- The 32 symbols of the default table: `A`-`Z` and `2`-`7` (00_scope.md R9). -/
theorem inv_default_ne_none_iff {c : Character} : inv Config.default c ≠ none ↔
    (0x41 ≤ c.toNat ∧ c.toNat ≤ 0x5A) ∨ (0x32 ≤ c.toNat ∧ c.toNat ≤ 0x37) := by
  rw [inv_default]
  split
  case isTrue hletter => simp [hletter]
  case isFalse hletter => simp [hletter]

theorem eq_default_pad_iff {c : Character} : c = Config.default.pad ↔ c.toNat = 0x3D := BitVec.toNat_inj.symm

/-- The 33 codes the default table does not call invalid (43_alphabet_mapper.md R106). -/
theorem classify_default_ne_invalid_iff (c : Character) : classify Config.default c ≠ .invalid ↔
    (0x41 ≤ c.toNat ∧ c.toNat ≤ 0x5A) ∨ (0x32 ≤ c.toNat ∧ c.toNat ≤ 0x37) ∨ c.toNat = 0x3D := by
  rw [classify_ne_invalid_iff, inv_default_ne_none_iff, eq_default_pad_iff, or_comm, or_assoc]

/-- Settles O36: `INV` is the table's inverse because no two symbols are equal, and the default table is computed. -/
theorem inverseMapAndAcceptedCodes : Obligations.InverseMapAndAcceptedCodes :=
  ⟨toNat_symbolOf_default, rfl, Config.default.valid, fun _ _ _ => inv_eq_some_iff, inv_symbolOf,
    fun _ _ _ => inv_eq_some_iff.mp, inv_default, classify_default_ne_invalid_iff⟩

end Sys2Proof.Machine
end

section
/-!
PROOFS. What a performed command leaves, as a state: `perform` and `exec` always answer it, and a field of it is read by
one lemma. Commands in a row are performed one after another (20_memory.md R48).
-/
namespace Sys2Proof

/-- Decoding undoes encoding (30_encoding.md R55-R59). -/
@[simp] theorem decodeCmd_encode (i : Instr) : decodeCmd (encode i) = .cmd i := by
  cases i with
  | encByte byte =>
    have hlow : (0#8 ++ byte).extractLsb' 0 8 = byte := BitVec.extractLsb'_append_eq_right
    have hhigh : (0#8 ++ byte).extractLsb' 8 8 = 0 := BitVec.extractLsb'_append_eq_left
    calc decodeCmd (encode (.encByte byte)) = formB8 0x2 (0#8 ++ byte) .encByte := decodeCmd_cmdWord _ _
      _ = .cmd (.encByte byte) := by rw [formB8, if_pos hhigh, hlow]
  | mapVal val =>
    have hlow : (0#11 ++ val).extractLsb' 0 5 = val := BitVec.extractLsb'_append_eq_right
    have hhigh : (0#11 ++ val).extractLsb' 5 11 = 0 := BitVec.extractLsb'_append_eq_left
    calc decodeCmd (encode (.mapVal val)) = formV5 0x7 (0#11 ++ val) .mapVal := decodeCmd_cmdWord _ _
      _ = .cmd (.mapVal val) := by rw [formV5, if_pos hhigh, hlow]
  | _ => exact decodeCmd_cmdWord _ _

end Sys2Proof

namespace Sys2Proof.Machine

/-- The state after a decoded word is performed. -/
def performed (d : Decoded) (s : State) : State :=
  { s with
    enc := encAfter d s.enc
    dec := decAfter s.cfg d s.dec
    outq := s.outq ++ emits s.cfg s.enc s.dec d }

theorem perform_eq_performed (d : Decoded) (s : State) : perform d s = .next (performed d s) := perform_eq d s

theorem exec_eq_performed (i : Instr) (s : State) : exec i s = .next (performed (.cmd i) s) := exec_eq i s

/-- A command's next state is the performed one. -/
theorem eq_performed_of_exec {i : Instr} {s t : State} (h : exec i s = .next t) : t = performed (.cmd i) s := by
  rw [exec_eq_performed] at h
  cases h
  rfl

section
variable (d : Decoded) (s : State)

@[simp] theorem performed_cfg : (performed d s).cfg = s.cfg := rfl
@[simp] theorem performed_enc : (performed d s).enc = encAfter d s.enc := rfl
@[simp] theorem performed_dec : (performed d s).dec = decAfter s.cfg d s.dec := rfl
@[simp] theorem performed_outq : (performed d s).outq = s.outq ++ emits s.cfg s.enc s.dec d := rfl
@[simp] theorem performed_rstSeen : (performed d s).rstSeen = s.rstSeen := rfl
@[simp] theorem performed_input : (performed d s).input = s.input := rfl
@[simp] theorem performed_turns : (performed d s).turns = s.turns := rfl
@[simp] theorem performed_popped : (performed d s).popped = s.popped := rfl

end

/-- The state after command words are performed in order. -/
def performedAll (Cs : List CmdWord) (s : State) : State := Cs.foldl (fun s C => performed (decodeCmd C) s) s

@[simp] theorem performedAll_nil (s : State) : performedAll [] s = s := rfl

@[simp] theorem performedAll_cons (C : CmdWord) (Cs : List CmdWord) (s : State) :
    performedAll (C :: Cs) s = performedAll Cs (performed (decodeCmd C) s) := rfl

theorem performWords_eq_performedAll (Cs : List CmdWord) (s : State) :
    performWords Cs s = .next (performedAll Cs s) := by
  induction Cs generalizing s with
  | nil => rfl
  | cons C Cs ih => rw [performWords, perform_eq_performed, performedAll_cons, ← ih]

theorem wordsOf_cons (keep : Instr → Bool) (i : Instr) (is : List Instr) (s : State) :
    wordsOf keep (i :: is) s =
      (if keep i then emits s.cfg s.enc s.dec (.cmd i) else []) ++ wordsOf keep is (performed (.cmd i) s) := by
  rw [wordsOf, emittedBy_eq, decodeCmd_encode, exec_eq_performed]

end Sys2Proof.Machine
end

section
/-!
PROOFS. The invariant of reachable states (10_state.md R26, R30, R31; 30_encoding.md R67): reset sets it up, and each of the
two agents' turns keeps it. The bound on `OUTQ` is what acceptance is for (70_reset_and_hazards.md R138): a command that
emits is performed only when its `MAXOUT` fits.
-/
namespace Sys2Proof.Machine

theorem accept_iff {s : State} {C : CmdWord} :
    accept s C = true ↔ s.rstSeen = true ∧ s.outq.length + maxOut (decodeCmd C) ≤ s.cfg.outDepth := by
  simp [accept, hasRoom]

theorem unitsWf_iff {s : State} : unitsWf s = true ↔ encWf s.enc = true ∧ decWf s.dec = true := by
  simp [unitsWf]

/-- The four parts of the invariant. -/
theorem stateInv_iff {s : State} : StateInv s = true ↔
    encWf s.enc = true ∧ decWf s.dec = true ∧ s.outq.length ≤ s.cfg.outDepth ∧ ∀ w ∈ s.outq, producible w = true := by
  simp [StateInv, unitsWf_iff, and_assoc]

/-- Reset sets the invariant up, from any state (70_reset_and_hazards.md R131). -/
theorem stateInv_assertReset (s : State) : StateInv (assertReset s) = true :=
  stateInv_iff.mpr ⟨rfl, rfl, Nat.zero_le _, fun _ hw => nomatch hw⟩

/-- A command with room for its words keeps the invariant. -/
theorem stateInv_performed {s : State} {C : CmdWord} (hs : StateInv s = true) (ha : accept s C = true) :
    StateInv (performed (decodeCmd C) s) = true := by
  obtain ⟨henc, hdec, -, hprod⟩ := stateInv_iff.mp hs
  obtain ⟨-, hroom⟩ := accept_iff.mp ha
  refine stateInv_iff.mpr ⟨encWf_encAfter henc _, decWf_decAfter hdec _ _, ?_, ?_⟩
  · have hmax := length_emits_le (cfg := s.cfg) henc s.dec (decodeCmd C)
    rw [performed_outq, performed_cfg, List.length_append]
    omega
  · intro w hw
    rcases List.mem_append.mp hw with hold | hnew
    · exact hprod w hold
    · exact producible_of_mem_emits hnew

theorem blockTurn_keeps_stateInv {s t : State} (hs : StateInv s = true) (h : blockTurn s = .next t) :
    StateInv t = true := by
  obtain ⟨-, rfl⟩ | ⟨C, rest, -, -, -, -, rfl⟩ | ⟨C, rest, -, -, -, ha, rfl⟩ := blockTurn_cases h
  · exact hs
  · exact hs
  · have hrest : StateInv { s with input := rest } = true := hs
    exact stateInv_performed hrest ha

theorem hostPop_keeps_stateInv {s t : State} (hs : StateInv s = true) (h : hostPop s = .next t) :
    StateInv t = true := by
  obtain ⟨-, ⟨-, rfl⟩ | ⟨w, ws, ho, -, rfl⟩⟩ := hostPop_cases h
  · exact hs
  · obtain ⟨henc, hdec, hlen, hprod⟩ := stateInv_iff.mp hs
    rw [ho] at hlen hprod
    exact stateInv_iff.mpr ⟨henc, hdec, Nat.le_of_succ_le hlen, fun v hv => hprod v (List.mem_cons_of_mem w hv)⟩

/-- Settles O38, turn by turn. -/
theorem everyStepKeepsTheInvariant : Obligations.EveryStepKeepsTheInvariant := by
  intro s t hs h
  have hturn : StateInv { s with turns := s.turns.tail } = true := hs
  obtain ⟨-, hblock⟩ | ⟨C, -, rfl⟩ | ⟨-, hpop⟩ | ⟨-, rfl⟩ := step_cases h
  · exact blockTurn_keeps_stateInv hturn hblock
  · exact hturn
  · exact hostPop_keeps_stateInv hturn hpop
  · exact stateInv_assertReset _

/-- Settles O37: `State.reset` is what asserting reset leaves. -/
theorem invariantAtReset : Obligations.InvariantAtReset :=
  ⟨stateInv_assertReset (State.powerOn Config.default), rfl⟩

/-- A run of one step more is a step and the rest of the run, on every machine. -/
theorem coreRun_succ_eq_next_iff (M : Host.Core) {n : Nat} {s t : M.State} :
    M.run (n + 1) s = .next t ↔ ∃ u, M.step s = .next u ∧ M.run n u = .next t := by
  rw [Host.Core.run]
  cases M.step s <;> simp

theorem runFor_succ_eq_next_iff {n : Nat} {s t : State} :
    runFor (n + 1) s = .next t ↔ ∃ u, step s = .next u ∧ runFor n u = .next t :=
  coreRun_succ_eq_next_iff core

/-- What every step keeps holds in every state a run comes to. -/
theorem runFor_keeps {P : State → Prop} (hstep : ∀ s t, P s → step s = .next t → P t) {n : Nat} {s t : State}
    (hs : P s) (h : runFor n s = .next t) : P t := by
  induction n generalizing s with
  | zero => cases h; exact hs
  | succ n ih =>
    obtain ⟨u, hu, hrest⟩ := runFor_succ_eq_next_iff.mp h
    exact ih (hstep s u hs hu) hrest

/-- Settles O39: the invariant is set up by the reset and kept along the run. -/
theorem reachableUnitsMeetTheirInvariants : Obligations.ReachableUnitsMeetTheirInvariants := by
  intro s t n h
  have ht : StateInv t = true := runFor_keeps everyStepKeepsTheInvariant (stateInv_assertReset s) h
  obtain ⟨henc, hdec, -, -⟩ := stateInv_iff.mp ht
  exact and_assoc.mp ⟨encWf_iff.mp henc, decWf_iff.mp hdec⟩

end Sys2Proof.Machine
end

section
/-!
PROOFS. What the block's turn, the host's turns and a whole step leave alone (10_state.md R22, R32), and the refusal of
ill-formed units (93_implementation_defined.md I11).
-/
namespace Sys2Proof.Machine

/-- Settles O34: no turn writes the configuration, `rst_seen` is only set, and a pop only appends to the popped words. -/
theorem configurationIsNeverWritten : Obligations.ConfigurationIsNeverWritten := by
  intro s t h
  obtain ⟨-, hblock⟩ | ⟨C, -, rfl⟩ | ⟨-, hpop⟩ | ⟨-, rfl⟩ := step_cases h
  · obtain ⟨-, rfl⟩ | ⟨C, rest, -, -, -, -, rfl⟩ | ⟨C, rest, -, -, -, -, rfl⟩ := blockTurn_cases hblock <;>
      exact ⟨rfl, id, List.prefix_rfl⟩
  · exact ⟨rfl, id, List.prefix_rfl⟩
  · obtain ⟨-, ⟨-, rfl⟩ | ⟨w, ws, -, -, rfl⟩⟩ := hostPop_cases hpop
    · exact ⟨rfl, id, List.prefix_rfl⟩
    · exact ⟨rfl, id, List.prefix_append _ _⟩
  · exact ⟨rfl, fun _ => rfl, List.prefix_rfl⟩

theorem blockTurn_refuses_illFormedUnits {s : State} {C : CmdWord} {rest : List CmdWord} (hi : s.input = C :: rest)
    (hr : s.rstSeen = true) (hw : unitsWf s = false) : blockTurn s = .refused .illFormedUnits := by
  simp [blockTurn, hi, hr, hw]

/-- Settles O15: each of the three faults breaks the invariant of a unit, and the block's turn checks both. -/
theorem illFormedUnitsAreRefused : Obligations.IllFormedUnitsAreRefused := by
  intro s C rest hr hi hturn hbad
  have hblock : s.turns.headD .block = .block := by
    obtain h | ⟨ts, h⟩ := hturn <;> rw [h] <;> rfl
  have hw : unitsWf s = false := by
    rw [Bool.eq_false_iff, Ne, unitsWf_iff, encWf_iff, decWf_iff]
    omega
  rw [step_eq_doTurn, hblock]
  exact blockTurn_refuses_illFormedUnits hi hr hw

/-- Settles O17: each field of `State.reset` is written out in it. -/
theorem stateAfterReset : Obligations.StateAfterReset := ⟨rfl, rfl, rfl, rfl, rfl, rfl⟩

end Sys2Proof.Machine
end

section
/-!
PROOFS. The frames of the commands, and that the units do not interfere (10_state.md R36, 20_memory.md R45, R46): a command
outside a unit leaves its fields, and what a unit's command emits and leaves depends on that unit and the table only.
-/
namespace Sys2Proof.Machine

theorem encAfter_of_not_isEncCmd {i : Instr} (h : isEncCmd i = false) (e : EncUnit) : encAfter (.cmd i) e = e := by
  cases i with
  | encClear | encByte | encEnd => cases h
  | _ => rfl

theorem decAfter_of_not_isDecCmd {i : Instr} (h : isDecCmd i = false) (cfg : Config) (u : DecUnit) :
    decAfter cfg (.cmd i) u = u := by
  cases i with
  | decClear | decChar | decEnd => cases h
  | _ => rfl

theorem emits_of_isEncCmd {i : Instr} (h : isEncCmd i = true) (cfg : Config) (e : EncUnit) (u u' : DecUnit) :
    emits cfg e u (.cmd i) = emits cfg e u' (.cmd i) := by
  cases i with
  | encClear | encByte | encEnd => rfl
  | _ => cases h

theorem emits_of_isDecCmd {i : Instr} (h : isDecCmd i = true) (cfg : Config) (e e' : EncUnit) (u : DecUnit) :
    emits cfg e u (.cmd i) = emits cfg e' u (.cmd i) := by
  cases i with
  | decClear | decChar | decEnd => rfl
  | _ => cases h

/-- A command of neither unit changes nothing but `OUTQ`. -/
theorem performed_of_no_unit {i : Instr} (he : isEncCmd i = false) (hd : isDecCmd i = false) (s : State) :
    performed (.cmd i) s = emitAll (emits s.cfg s.enc s.dec (.cmd i)) s := by
  rw [performed, encAfter_of_not_isEncCmd he, decAfter_of_not_isDecCmd hd, emitAll]

/-- Settles O31: only the encoder's fields are written, and words are appended. -/
theorem encoderCommandsLeaveTheRest : Obligations.EncoderCommandsLeaveTheRest := by
  intro i s t hi h
  obtain rfl := eq_performed_of_exec h
  have hdec : isDecCmd i = false := by obtain rfl | rfl | ⟨b, rfl⟩ := hi <;> rfl
  refine ⟨decAfter_of_not_isDecCmd hdec _ _, rfl, rfl, rfl, rfl, rfl, List.prefix_append _ _, ?_⟩
  rintro rfl
  exact List.append_nil _

/-- Settles O32: only the decoder's fields are written, and words are appended. -/
theorem decoderCommandsLeaveTheRest : Obligations.DecoderCommandsLeaveTheRest := by
  intro i s t hi h
  obtain rfl := eq_performed_of_exec h
  have henc : isEncCmd i = false := by obtain rfl | rfl | ⟨c, rfl⟩ := hi <;> rfl
  refine ⟨encAfter_of_not_isEncCmd henc _, rfl, rfl, rfl, rfl, rfl, List.prefix_append _ _, ?_⟩
  rintro rfl
  exact List.append_nil _

/-- Settles O33: a command of neither unit only appends words. -/
theorem mapperStripAndNopLeaveTheUnits : Obligations.MapperStripAndNopLeaveTheUnits := by
  intro i s t hi h
  have hunits : isEncCmd i = false ∧ isDecCmd i = false := by
    obtain rfl | ⟨v, rfl⟩ | ⟨c, rfl⟩ | ⟨c, rfl⟩ := hi <;> exact ⟨rfl, rfl⟩
  obtain rfl := eq_performed_of_exec h
  rw [performed_of_no_unit hunits.1 hunits.2]
  refine ⟨rfl, List.prefix_append _ _, ?_⟩
  rintro rfl
  exact List.append_nil _

/-- `view` is all of the state that the commands `keep` picks read and write, but for the queue: they emit the same words
and leave the same view from states of one view, and the other commands leave it. -/
structure Isolated {α : Type} (keep : Instr → Bool) (view : State → α) : Prop where
  emits_eq : ∀ {i s s'}, keep i = true → view s = view s' →
    emits s.cfg s.enc s.dec (.cmd i) = emits s'.cfg s'.enc s'.dec (.cmd i)
  view_kept : ∀ {i s s'}, keep i = true → view s = view s' → view (performed (.cmd i) s) = view (performed (.cmd i) s')
  view_other : ∀ {i}, keep i = false → ∀ s, view (performed (.cmd i) s) = view s

/-- What the encoder's commands see. -/
def encView (s : State) : Config × EncUnit := (s.cfg, s.enc)

/-- What the decoder's commands see. -/
def decView (s : State) : Config × DecUnit := (s.cfg, s.dec)

theorem encView_eq_iff {s s' : State} : encView s = encView s' ↔ s.cfg = s'.cfg ∧ s.enc = s'.enc := Prod.mk_inj

theorem decView_eq_iff {s s' : State} : decView s = decView s' ↔ s.cfg = s'.cfg ∧ s.dec = s'.dec := Prod.mk_inj

/-- The encoder is isolated from the other commands (10_state.md R36). -/
theorem isolated_encoder : Isolated isEncCmd encView where
  emits_eq hi hv := by
    obtain ⟨hcfg, henc⟩ := encView_eq_iff.mp hv
    rw [hcfg, henc]
    exact emits_of_isEncCmd hi _ _ _ _
  view_kept _ hv := by
    obtain ⟨hcfg, henc⟩ := encView_eq_iff.mp hv
    exact encView_eq_iff.mpr ⟨hcfg, by rw [performed_enc, performed_enc, henc]⟩
  view_other hi s := encView_eq_iff.mpr ⟨rfl, encAfter_of_not_isEncCmd hi _⟩

/-- The decoder is isolated from the other commands (10_state.md R36). -/
theorem isolated_decoder : Isolated isDecCmd decView where
  emits_eq hi hv := by
    obtain ⟨hcfg, hdec⟩ := decView_eq_iff.mp hv
    rw [hcfg, hdec]
    exact emits_of_isDecCmd hi _ _ _ _
  view_kept _ hv := by
    obtain ⟨hcfg, hdec⟩ := decView_eq_iff.mp hv
    exact decView_eq_iff.mpr ⟨hcfg, by rw [performed_dec, performed_dec, hcfg, hdec]⟩
  view_other hi s := decView_eq_iff.mpr ⟨rfl, decAfter_of_not_isDecCmd hi _ _⟩

section
variable {α : Type} {keep : Instr → Bool} {view : State → α}

/-- The commands of an isolated unit emit among others what they emit alone, from any state of the same view. -/
theorem Isolated.wordsOf_filter (iso : Isolated keep view) (is : List Instr) {s s' : State} (hv : view s = view s') :
    wordsOf keep is s = wordsOf keep (is.filter keep) s' := by
  induction is generalizing s s' with
  | nil => rfl
  | cons i is ih =>
    cases hi : keep i with
    | true => rw [List.filter_cons_of_pos hi, wordsOf_cons, wordsOf_cons, iso.emits_eq hi hv, ih (iso.view_kept hi hv)]
    | false =>
      have hskip : view (performed (.cmd i) s) = view s' := (iso.view_other hi s).trans hv
      rw [List.filter_cons_of_neg (by simp [hi]), wordsOf_cons, ih hskip]
      simp [hi]

/-- An isolated unit ends among other commands as its own commands alone leave it. -/
theorem Isolated.view_performedAll_filter (iso : Isolated keep view) (is : List Instr) {s s' : State}
    (hv : view s = view s') :
    view (performedAll (is.map encode) s) = view (performedAll ((is.filter keep).map encode) s') := by
  induction is generalizing s s' with
  | nil => exact hv
  | cons i is ih =>
    rw [List.map_cons, performedAll_cons, decodeCmd_encode]
    cases hi : keep i with
    | true =>
      rw [List.filter_cons_of_pos hi, List.map_cons, performedAll_cons, decodeCmd_encode]
      exact ih (iso.view_kept hi hv)
    | false =>
      rw [List.filter_cons_of_neg (by simp [hi])]
      exact ih ((iso.view_other hi s).trans hv)

end

/-- Settles O46: both units are isolated, by induction on the commands. -/
theorem unitsAreIndependent : Obligations.UnitsAreIndependent := by
  intro is s
  have henc := isolated_encoder.view_performedAll_filter is (Eq.refl (encView s))
  have hdec := isolated_decoder.view_performedAll_filter is (Eq.refl (decView s))
  exact ⟨isolated_encoder.wordsOf_filter is rfl, isolated_decoder.wordsOf_filter is rfl, _, _, _,
    performWords_eq_performedAll _ _, performWords_eq_performedAll _ _, performWords_eq_performedAll _ _,
    (encView_eq_iff.mp henc).2, (decView_eq_iff.mp hdec).2⟩

end Sys2Proof.Machine
end

section
/-!
PROOFS. Order and determinism (20_memory.md R44, R46, R48, R54). Commands performed in order append their words to `OUTQ`,
and read of a state only its `cmdView`: the table and the units. So a schedule of turns decides when words are emitted and
popped, but not which: `Consumes` relates the ends of a run to the commands it consumed, turn by turn.
-/
namespace Sys2Proof.Machine

/-- All that the commands read of a state (20_memory.md R54). -/
def cmdView (s : State) : Vector Character 32 × Character × EncUnit × DecUnit := (s.cfg.alpha, s.cfg.pad, s.enc, s.dec)

theorem cmdView_eq_iff {s s' : State} : cmdView s = cmdView s' ↔
    s.cfg.alpha = s'.cfg.alpha ∧ s.cfg.pad = s'.cfg.pad ∧ s.enc = s'.enc ∧ s.dec = s'.dec := by
  simp [cmdView]

section
variable {cfg cfg' : Config} (ha : cfg.alpha = cfg'.alpha)
include ha

theorem symbolOf_congr : symbolOf cfg = symbolOf cfg' := by
  funext v
  simp only [symbolOf, ha]

variable (hp : cfg.pad = cfg'.pad)
include hp

theorem classify_congr : classify cfg = classify cfg' := by
  funext c
  simp only [classify, inv, symbolOf_congr ha, hp]

theorem decAfter_congr (d : Decoded) (u : DecUnit) : decAfter cfg d u = decAfter cfg' d u := by
  simp only [decAfter, classify_congr ha hp]

/-- The words of a command do not depend on `OUT_DEPTH`. -/
theorem emits_congr (e : EncUnit) (u : DecUnit) (d : Decoded) : emits cfg e u d = emits cfg' e u d := by
  unfold emits fillWords padWords
  rw [symbolOf_congr ha, classify_congr ha hp, hp]

end

theorem emits_eq_of_cmdView_eq {s s' : State} (hv : cmdView s = cmdView s') (d : Decoded) :
    emits s.cfg s.enc s.dec d = emits s'.cfg s'.enc s'.dec d := by
  obtain ⟨ha, hp, henc, hdec⟩ := cmdView_eq_iff.mp hv
  rw [emits_congr ha hp, henc, hdec]

theorem cmdView_performed_eq {s s' : State} (hv : cmdView s = cmdView s') (d : Decoded) :
    cmdView (performed d s) = cmdView (performed d s') := by
  obtain ⟨ha, hp, henc, hdec⟩ := cmdView_eq_iff.mp hv
  refine cmdView_eq_iff.mpr ⟨ha, hp, congrArg (encAfter d) henc, ?_⟩
  rw [performed_dec, performed_dec, decAfter_congr ha hp, hdec]

theorem cmdView_performedAll_eq (Cs : List CmdWord) {s s' : State} (hv : cmdView s = cmdView s') :
    cmdView (performedAll Cs s) = cmdView (performedAll Cs s') := by
  induction Cs generalizing s s' with
  | nil => exact hv
  | cons C Cs ih => exact ih (cmdView_performed_eq hv _)

theorem traceOf_cons (C : CmdWord) (Cs : List CmdWord) (s : State) :
    traceOf (C :: Cs) s =
      .cmd C (emits s.cfg s.enc s.dec (decodeCmd C)) :: traceOf Cs (performed (decodeCmd C) s) := by
  rw [traceOf, emittedBy_eq, perform_eq_performed]

theorem length_traceOf (Cs : List CmdWord) (s : State) : (traceOf Cs s).length = Cs.length := by
  induction Cs generalizing s with
  | nil => rfl
  | cons C Cs ih => rw [traceOf_cons, List.length_cons, ih, List.length_cons]

theorem traceOf_eq_of_cmdView_eq (Cs : List CmdWord) {s s' : State} (hv : cmdView s = cmdView s') :
    traceOf Cs s = traceOf Cs s' := by
  induction Cs generalizing s s' with
  | nil => rfl
  | cons C Cs ih => rw [traceOf_cons, traceOf_cons, emits_eq_of_cmdView_eq hv, ih (cmdView_performed_eq hv _)]

/-- Settles O45: the trace is read from the table and the units, which the two states share. -/
theorem emittedWordsDependOnTableUnitsAndCommands : Obligations.EmittedWordsDependOnTableUnitsAndCommands :=
  fun Cs _ _ ha hp henc hdec => traceOf_eq_of_cmdView_eq Cs (cmdView_eq_iff.mpr ⟨ha, hp, henc, hdec⟩)

/-- The words of commands performed in order, each command's words together (20_memory.md R46). -/
def wordsInOrder (Cs : List CmdWord) (s : State) : List OutWord := (traceOf Cs s).flatMap TraceEntry.words

@[simp] theorem wordsInOrder_nil (s : State) : wordsInOrder [] s = [] := rfl

@[simp] theorem wordsInOrder_cons (C : CmdWord) (Cs : List CmdWord) (s : State) :
    wordsInOrder (C :: Cs) s =
      emits s.cfg s.enc s.dec (decodeCmd C) ++ wordsInOrder Cs (performed (decodeCmd C) s) := by
  rw [wordsInOrder, traceOf_cons, List.flatMap_cons, TraceEntry.words, wordsInOrder]

theorem wordsInOrder_eq_of_cmdView_eq (Cs : List CmdWord) {s s' : State} (hv : cmdView s = cmdView s') :
    wordsInOrder Cs s = wordsInOrder Cs s' := by
  rw [wordsInOrder, traceOf_eq_of_cmdView_eq Cs hv, wordsInOrder]

theorem performedAll_append (Cs Ds : List CmdWord) (s : State) :
    performedAll (Cs ++ Ds) s = performedAll Ds (performedAll Cs s) := List.foldl_append

theorem wordsInOrder_append (Cs Ds : List CmdWord) (s : State) :
    wordsInOrder (Cs ++ Ds) s = wordsInOrder Cs s ++ wordsInOrder Ds (performedAll Cs s) := by
  induction Cs generalizing s with
  | nil => rfl
  | cons C Cs ih => simp [ih]

/-- `OUTQ` is written at its tail only. -/
theorem outq_performedAll (Cs : List CmdWord) (s : State) :
    (performedAll Cs s).outq = s.outq ++ wordsInOrder Cs s := by
  induction Cs generalizing s with
  | nil => simp
  | cons C Cs ih => simp [ih]

/-- Settles O43: each command appends its own words, by induction on the commands. -/
theorem outputsStandInCommandOrder : Obligations.OutputsStandInCommandOrder := fun Cs s =>
  ⟨performedAll Cs s, performWords_eq_performedAll Cs s, outq_performedAll Cs s, length_traceOf Cs s⟩

/-- From `s` to `t` the words `pushed` joined the input, the block took `consumed` from it, and what the host has and will
pop is what `consumed` emits when performed in order. -/
structure Consumes (pushed consumed : List CmdWord) (s t : State) : Prop where
  input_eq : s.input ++ pushed = consumed ++ t.input
  view_eq : cmdView t = cmdView (performedAll consumed s)
  words_eq : t.popped ++ t.outq = s.popped ++ s.outq ++ wordsInOrder consumed s

/-- Two stretches of a run joined: the later commands find the table and units as the earlier ones left them. -/
theorem Consumes.trans {ps qs cs ds : List CmdWord} {s u t : State} (h₁ : Consumes ps cs s u)
    (h₂ : Consumes qs ds u t) : Consumes (ps ++ qs) (cs ++ ds) s t where
  input_eq := by rw [← List.append_assoc, h₁.input_eq, List.append_assoc, h₂.input_eq, List.append_assoc]
  view_eq := by rw [h₂.view_eq, performedAll_append, cmdView_performedAll_eq ds h₁.view_eq]
  words_eq := by
    rw [h₂.words_eq, h₁.words_eq, wordsInOrder_append, wordsInOrder_eq_of_cmdView_eq ds h₁.view_eq, List.append_assoc]

/-- The schedule is no part of what the relation speaks of, and an idle turn or a hold changes nothing else. -/
theorem consumes_nothing (s : State) (ts : List Turn) : Consumes [] [] s { s with turns := ts } where
  input_eq := List.append_nil _
  view_eq := rfl
  words_eq := (List.append_nil _).symm

theorem hostPush_consumes (C : CmdWord) (s : State) : Consumes [C] [] s (hostPush C s) where
  input_eq := rfl
  view_eq := rfl
  words_eq := (List.append_nil _).symm

/-- A pop moves a word from `OUTQ` to the popped words, between the same neighbours. -/
theorem hostPop_consumes {s t : State} (h : hostPop s = .next t) : Consumes [] [] s t := by
  obtain ⟨-, ⟨-, rfl⟩ | ⟨w, ws, ho, -, rfl⟩⟩ := hostPop_cases h
  · exact consumes_nothing _ _
  · exact ⟨List.append_nil _, rfl, by simp [ho]⟩

theorem blockTurn_consumes {s t : State} (h : blockTurn s = .next t) : ∃ consumed, Consumes [] consumed s t := by
  obtain ⟨-, rfl⟩ | ⟨C, rest, -, -, -, -, rfl⟩ | ⟨C, rest, hi, -, -, -, rfl⟩ := blockTurn_cases h
  · exact ⟨[], consumes_nothing _ _⟩
  · exact ⟨[], consumes_nothing _ _⟩
  · exact ⟨[C], by simp [hi], rfl, by simp⟩

/-- A step takes its turn off the schedule. -/
theorem step_turns {s t : State} (h : step s = .next t) : t.turns = s.turns.tail := by
  obtain ⟨-, hblock⟩ | ⟨C, -, rfl⟩ | ⟨-, hpop⟩ | ⟨-, rfl⟩ := step_cases h
  · obtain ⟨-, rfl⟩ | ⟨C, rest, -, -, -, -, rfl⟩ | ⟨C, rest, -, -, -, -, rfl⟩ := blockTurn_cases hblock <;> rfl
  · rfl
  · obtain ⟨-, ⟨-, rfl⟩ | ⟨w, ws, -, -, rfl⟩⟩ := hostPop_cases hpop <;> rfl
  · rfl

theorem step_consumes {s t : State} (hr : s.turns.headD .block ≠ .reset) (h : step s = .next t) :
    ∃ consumed, Consumes (pushedBy [s.turns.headD .block]) consumed s t := by
  have hturn := consumes_nothing s s.turns.tail
  obtain ⟨hd, hblock⟩ | ⟨C, hd, rfl⟩ | ⟨hd, hpop⟩ | ⟨hd, -⟩ := step_cases h
  · rw [hd]
    obtain ⟨consumed, hc⟩ := blockTurn_consumes hblock
    exact ⟨consumed, hturn.trans hc⟩
  · rw [hd]
    exact ⟨[], hturn.trans (hostPush_consumes C _)⟩
  · rw [hd]
    exact ⟨[], hturn.trans (hostPop_consumes hpop)⟩
  · exact absurd hd hr

/-- A schedule pushes what its head pushes, then what the rest does; a turn that is not listed is the block's. -/
theorem pushedBy_take_succ (ts : List Turn) (n : Nat) :
    pushedBy (ts.take (n + 1)) = pushedBy [ts.headD .block] ++ pushedBy (ts.tail.take n) := by
  cases ts with
  | nil => simp [pushedBy]
  | cons turn ts => cases turn <;> rfl

theorem reset_not_mem_take_succ {ts : List Turn} {n : Nat} (h : .reset ∉ ts.take (n + 1)) :
    ts.headD .block ≠ .reset ∧ .reset ∉ ts.tail.take n := by
  cases ts with
  | nil => simp
  | cons turn ts => simpa [eq_comm] using h

/-- A run without a reset consumes commands, whatever its schedule. -/
theorem runFor_consumes {n : Nat} {s t : State} (hr : .reset ∉ s.turns.take n) (h : runFor n s = .next t) :
    ∃ consumed, Consumes (pushedBy (s.turns.take n)) consumed s t := by
  induction n generalizing s with
  | zero =>
    cases h
    exact ⟨[], consumes_nothing _ _⟩
  | succ n ih =>
    obtain ⟨u, hu, hrest⟩ := runFor_succ_eq_next_iff.mp h
    obtain ⟨hhead, htail⟩ := reset_not_mem_take_succ hr
    rw [← step_turns hu] at htail
    obtain ⟨cs, hcs⟩ := step_consumes hhead hu
    obtain ⟨ds, hds⟩ := ih htail hrest
    rw [pushedBy_take_succ, ← step_turns hu]
    exact ⟨cs ++ ds, hcs.trans hds⟩

/-- Settles O44: every turn but a reset keeps the relation, by induction on the steps. -/
theorem everyScheduleGivesTheSameWords : Obligations.EveryScheduleGivesTheSameWords := by
  intro s t n hr h
  obtain ⟨consumed, hinput, hview, hwords⟩ := runFor_consumes hr h
  obtain ⟨-, -, henc, hdec⟩ := cmdView_eq_iff.mp hview
  refine ⟨consumed, performedAll consumed s, hinput, performWords_eq_performedAll consumed s, henc, hdec, ?_⟩
  rw [hwords, outq_performedAll, List.append_assoc]

end Sys2Proof.Machine
end

section
/-!
PROOFS. The round trip of command words and the opcode map (30_encoding.md R55-R59). A command has one word, and a row of the
map, cut into opcode and operand, says which operand bits are reserved; that and `decodeFields_cases` decide every word.
-/
namespace Sys2Proof

/-- Settles O3: each form puts its operand where decoding looks for it, and 0 in the bits it reserves. -/
theorem decodeUndoesEncode : Obligations.DecodeUndoesEncode := decodeCmd_encode

/-- A command's word is its only word (30_encoding.md R56: every other bit pattern is `BAD_OPERAND`). -/
theorem encode_eq_of_decodeCmd_eq {C : CmdWord} {i : Instr} (h : decodeCmd C = .cmd i) : encode i = C := by
  rw [decodeCmd] at h
  obtain ⟨j, hj, hword⟩ | ⟨-, herr⟩ | ⟨-, -, herr⟩ | ⟨-, -, herr⟩ | ⟨-, -, herr⟩ :=
    decodeFields_cases (opOf C) (dataOf C)
  · obtain rfl : j = i := Decoded.cmd.inj (hj.symm.trans h)
    rw [hword, cmdWord_opOf_dataOf]
  all_goals exact nomatch herr.symm.trans h

/-- Settles O4: of what `decodeFields_cases` lists, only its first case answers a command. -/
theorem encodeUndoesDecode : Obligations.EncodeUndoesDecode := fun _ _ => encode_eq_of_decodeCmd_eq

/-- A reserved opcode is illegal whatever the operand is (44_control.md R110). -/
theorem decodeFields_of_ten_le {op : Opcode} (h : 10 ≤ op.toNat) (D : BitVec 16) : decodeFields op D = .illegal op := by
  unfold decodeFields
  split
  case h_11 => rfl
  all_goals omega

/-- Two command words are equal exactly when both fields are (30_encoding.md R55). -/
theorem cmdWord_inj {op op' : Opcode} {D D' : BitVec 16} : cmdWord op D = cmdWord op' D' ↔ op = op' ∧ D = D' := by
  constructor
  · intro h
    exact ⟨by simpa using congrArg opOf h, by simpa using congrArg dataOf h⟩
  · rintro ⟨rfl, rfl⟩
    rfl

theorem cmdWord_and (op op' : Opcode) (D D' : BitVec 16) :
    cmdWord op D &&& cmdWord op' D' = cmdWord (op &&& op') (D &&& D') := BitVec.and_append

/-- A row matches its opcode with all four opcode bits in the mask, and 0 in the operand (30_encoding.md R58). -/
theorem row_fields : ∀ r ∈ opcodeRows, r.fixedBits = cmdWord r.op 0 ∧ r.mask = cmdWord 0xF (dataOf r.mask) := by
  decide

/-- A row spells the words of its opcode that set no operand bit of the mask. -/
theorem spells_iff {r : OpcodeRow} (hr : r ∈ opcodeRows) {C : CmdWord} :
    r.spells C = true ↔ opOf C = r.op ∧ dataOf C &&& dataOf r.mask = 0 := by
  obtain ⟨hfixed, hmask⟩ := row_fields r hr
  have hop : opOf C &&& 0xF = opOf C := BitVec.and_allOnes
  calc r.spells C = true
      ↔ cmdWord (opOf C) (dataOf C) &&& cmdWord 0xF (dataOf r.mask) = cmdWord r.op 0 := by
        rw [OpcodeRow.spells, beq_iff_eq, cmdWord_opOf_dataOf, ← hfixed, ← hmask]
    _ ↔ cmdWord (opOf C &&& 0xF) (dataOf C &&& dataOf r.mask) = cmdWord r.op 0 := by
        rw [cmdWord_and]
    _ ↔ opOf C = r.op ∧ dataOf C &&& dataOf r.mask = 0 := by rw [cmdWord_inj, hop]

theorem row_eq_of_op_eq : ∀ r₁ ∈ opcodeRows, ∀ r₂ ∈ opcodeRows, r₁.op = r₂.op → r₁ = r₂ := by decide

theorem row_eq_of_spells {r₁ r₂ : OpcodeRow} (h₁ : r₁ ∈ opcodeRows) (h₂ : r₂ ∈ opcodeRows) {C : CmdWord}
    (hs₁ : r₁.spells C = true) (hs₂ : r₂.spells C = true) : r₁ = r₂ :=
  row_eq_of_op_eq r₁ h₁ r₂ h₂ (((spells_iff h₁).mp hs₁).1.symm.trans ((spells_iff h₂).mp hs₂).1)

theorem encode_spells_its_row (i : Instr) : Laws.SpellsItsRow.Statement i := by
  cases i with
  | nop => exact Laws.SpellsItsRow.nop
  | encClear => exact Laws.SpellsItsRow.encClear
  | encByte byte => exact Laws.SpellsItsRow.encByte byte
  | encEnd => exact Laws.SpellsItsRow.encEnd
  | decClear => exact Laws.SpellsItsRow.decClear
  | decChar ch => exact Laws.SpellsItsRow.decChar ch
  | decEnd => exact Laws.SpellsItsRow.decEnd
  | mapVal val => exact Laws.SpellsItsRow.mapVal val
  | mapSym ch => exact Laws.SpellsItsRow.mapSym ch
  | stripChar ch => exact Laws.SpellsItsRow.stripChar ch

/-- A word that decodes to a command is spelled by that command's row. -/
theorem spelled_of_decodeCmd_eq_cmd {C : CmdWord} {i : Instr} (h : decodeCmd C = .cmd i) :
    ∃ r ∈ opcodeRows, r.spells C = true ∧ r.mnemonic = mnemonicOf i := by
  obtain ⟨r, hr, hname, hspells⟩ := encode_spells_its_row i
  exact ⟨r, hr, encode_eq_of_decodeCmd_eq h ▸ hspells, hname⟩

/-- The operand bits a row's mask reserves are those its form reserves (30_encoding.md R56, R58). -/
theorem row_reserved : ∀ r ∈ opcodeRows, r.op.toNat < 10 ∧
    (r.op.toNat ∈ [0, 1, 3, 4, 6] → dataOf r.mask = 0xFFFF) ∧
    (r.op.toNat = 2 → dataOf r.mask = 0xFF00) ∧ (r.op.toNat = 7 → dataOf r.mask = 0xFFE0) := by
  decide

/-- The high bits of an operand are 0 when the mask of those bits leaves nothing of it. -/
theorem high_zero_of_and_mask_eq_zero {m n : Nat} {D mask : BitVec 16} (hmask : mask.extractLsb' n m = BitVec.allOnes m)
    (h : D &&& mask = 0) : D.extractLsb' n m = 0 := by
  calc D.extractLsb' n m = D.extractLsb' n m &&& mask.extractLsb' n m := by rw [hmask, BitVec.and_allOnes]
    _ = (D &&& mask).extractLsb' n m := BitVec.extractLsb'_and.symm
    _ = 0 := by rw [h]; exact BitVec.extractLsb'_zero

/-- A word that a row spells decodes to that row's command. -/
theorem decodeCmd_of_spells {r : OpcodeRow} (hr : r ∈ opcodeRows) {C : CmdWord} (hs : r.spells C = true) :
    ∃ i, decodeCmd C = .cmd i ∧ mnemonicOf i = r.mnemonic := by
  obtain ⟨hop, hD⟩ := (spells_iff hr).mp hs
  obtain ⟨hlegal, hZ, hB, hV⟩ := row_reserved r hr
  rw [← hop] at hlegal hZ hB hV
  obtain ⟨i, hi, -⟩ | ⟨hge, -⟩ | ⟨hZop, hne, -⟩ | ⟨hBop, hne, -⟩ | ⟨hVop, hne, -⟩ :=
    decodeFields_cases (opOf C) (dataOf C)
  · obtain ⟨r', hr', hs', hname⟩ := spelled_of_decodeCmd_eq_cmd hi
    exact ⟨i, hi, by rw [row_eq_of_spells hr hr' hs hs', hname]⟩
  · omega
  · rw [hZ hZop] at hD
    exact absurd (BitVec.and_allOnes.symm.trans hD) hne
  · rw [hB hBop] at hD
    exact absurd (high_zero_of_and_mask_eq_zero rfl hD) hne
  · rw [hV hVop] at hD
    exact absurd (high_zero_of_and_mask_eq_zero rfl hD) hne

/-- A word of a legal opcode that no row spells sets a reserved operand bit. -/
theorem decodeCmd_of_not_spelled {C : CmdWord} (hop : (opOf C).toNat ≤ 9)
    (hs : ∀ r ∈ opcodeRows, r.spells C = false) : decodeCmd C = .badOperand (opOf C) := by
  obtain ⟨i, hi, -⟩ | ⟨hge, -⟩ | ⟨-, -, herr⟩ | ⟨-, -, herr⟩ | ⟨-, -, herr⟩ :=
    decodeFields_cases (opOf C) (dataOf C)
  · obtain ⟨r, hr, hspells, -⟩ := spelled_of_decodeCmd_eq_cmd hi
    exact nomatch (hs r hr).symm.trans hspells
  · omega
  all_goals exact herr

/-- Settles O5: a row is known by its opcode, and its mask reserves what its form does. -/
theorem opcodeMapRowsDecideEveryWord : Obligations.OpcodeMapRowsDecideEveryWord :=
  ⟨rfl, fun _ => ⟨fun _ h₁ _ h₂ => row_eq_of_spells h₁ h₂, fun _ hr => decodeCmd_of_spells hr,
    fun _ => spelled_of_decodeCmd_eq_cmd, decodeCmd_of_not_spelled, fun h => decodeFields_of_ten_le h _⟩⟩

theorem opcode_cases : ∀ op : Opcode, 0xA ≤ op ∨ op = 0x0 ∨ op = 0x1 ∨ op = 0x2 ∨ op = 0x3 ∨ op = 0x4 ∨ op = 0x5 ∨
    op = 0x6 ∨ op = 0x7 ∨ op = 0x8 ∨ op = 0x9 := by decide

/-- Settles O6, opcode by opcode. -/
theorem decodingIsTheSpecsFunction : Obligations.DecodingIsTheSpecsFunction := by
  intro C
  change decodeFields (opOf C) (dataOf C) = _
  rw [← opOf, ← dataOf]
  generalize opOf C = op, dataOf C = D
  obtain h | rfl | rfl | rfl | rfl | rfl | rfl | rfl | rfl | rfl | rfl := opcode_cases op
  · rw [decodeFields_of_ten_le h]
    exact (if_pos h).symm
  all_goals simp [decodeFields, formZ, formB8, formV5]

/-- Settles O1: each word is evaluated. -/
theorem sampleWordsDecode : Obligations.SampleWordsDecode := by
  unfold Obligations.SampleWordsDecode
  decide

end Sys2Proof
end

section
/-!
PROOFS. Output words read back (30_encoding.md R60-R67, R72): a word is known by its two fields, and each reader answers the
form whose word has those fields.
-/
namespace Sys2Proof.Machine

/-- An output word is known by its two fields (30_encoding.md R60). -/
theorem outWord_ext {w w' : OutWord} (htag : tagOf w = tagOf w') (hvalue : valueOf w = valueOf w') : w = w' := by
  rw [← tagOf_append_valueOf w, htag, hvalue, tagOf_append_valueOf]

theorem valueOf_byteWord_eq_append : ∀ b : Byte, valueOf (byteWord b) = 0#8 ++ b := by decide +kernel

theorem valueOf_statusWord (op : Opcode) (code : StatusCode) :
    valueOf (statusWord op code) = 0#8 ++ (op ++ statusBits code) := by
  revert op
  cases code <;> decide

theorem tag_cases : ∀ t : BitVec 2, t = 0 ∨ t = 1 ∨ t = 2 ∨ t = 3 := by decide

section
variable {w : OutWord}

theorem readWord_of_tag_zero (h : tagOf w = 0) : readWord w = some (.sym (valueOf w)) := by simp [readWord, h]

theorem readWord_of_tag_one (h : tagOf w = 1) : readWord w =
    if (valueOf w).extractLsb' 8 8 = 0 then some (.byte ((valueOf w).extractLsb' 0 8)) else none := by
  simp [readWord, h]

theorem readWord_of_tag_two (h : tagOf w = 2) : readWord w = readVal (valueOf w) := by simp [readWord, h]

theorem readWord_of_tag_three (h : tagOf w = 3) : readWord w = readStatus (valueOf w) := by simp [readWord, h]

end

/-- The value of a VAL word is that of the form it is read as (30_encoding.md R63). -/
theorem wordOf_of_readVal_eq {V : BitVec 16} {l : Listing} (h : readVal V = some l) : wordOf l = valWord V := by
  unfold readVal at h
  split at h
  case isTrue hpad => rw [← Option.some.inj h, hpad, wordOf]
  case isFalse =>
    split at h
    case isTrue hinvalid => rw [← Option.some.inj h, hinvalid, wordOf]
    case isFalse =>
      split at h
      case isTrue hsmall =>
        have hV : ((V.extractLsb' 0 5).setWidth 16) = V := by
          apply BitVec.eq_of_toNat_eq
          simp only [BitVec.toNat_setWidth, BitVec.extractLsb'_toNat]
          omega
        rw [← Option.some.inj h, wordOf, hV]
      case isFalse => cases h

theorem readVal_eq_none_iff {V : BitVec 16} : readVal V = none ↔ 0x20 < V.toNat ∧ V.toNat ≠ 0x40 := by
  by_cases hpad : V = 0x0020
  · subst hpad
    decide
  by_cases hinvalid : V = 0x0040
  · subst hinvalid
    decide
  have hpad' : V.toNat ≠ 0x20 := fun h => hpad (BitVec.eq_of_toNat_eq h)
  have hinvalid' : V.toNat ≠ 0x40 := fun h => hinvalid (BitVec.eq_of_toNat_eq h)
  rw [readVal, if_neg hpad, if_neg hinvalid, ite_eq_right_iff]
  simp only [reduceCtorEq, imp_false]
  omega

theorem statusBits_of_statusOfBits_eq {b : BitVec 4} {code : StatusCode} (h : statusOfBits b = some code) :
    statusBits code = b := by
  revert b
  cases code <;> decide

/-- The value of a STATUS word is that of the form it is read as, a form the block can produce (30_encoding.md R64, R67). -/
theorem exists_status_of_readStatus_eq {V : BitVec 16} {l : Listing} (h : readStatus V = some l) :
    ∃ op code, l = .status op code ∧ statusProduced op code = true ∧ valueOf (statusWord op code) = V := by
  unfold readStatus at h
  split at h
  case isFalse => cases h
  case isTrue hhigh =>
    split at h
    case h_2 => cases h
    case h_1 code hcode =>
      split at h
      case isFalse => cases h
      case isTrue hprod =>
        refine ⟨_, code, (Option.some.inj h).symm, hprod, ?_⟩
        have hlow : V.extractLsb' 4 4 ++ V.extractLsb' 0 4 = V.extractLsb' 0 8 :=
          BitVec.extractLsb'_append_extractLsb'_eq_extractLsb' rfl
        rw [valueOf_statusWord, statusBits_of_statusOfBits_eq hcode, hlow]
        exact join_of_high_zero (m := 8) (n := 8) rfl hhigh

/-- A word that is read is the word of the form it is read as. -/
theorem wordOf_of_readWord_eq {w : OutWord} {l : Listing} (h : readWord w = some l) : wordOf l = w := by
  obtain htag | htag | htag | htag := tag_cases (tagOf w)
  · rw [readWord_of_tag_zero htag] at h
    cases h
    exact outWord_ext (by rw [htag, wordOf, tagOf_symWord]) (valueOf_symWord _)
  · rw [readWord_of_tag_one htag] at h
    split at h
    case isFalse => cases h
    case isTrue hhigh =>
      cases h
      refine outWord_ext ((tagOf_byteWord _).trans htag.symm) ?_
      exact (valueOf_byteWord_eq_append _).trans (join_of_high_zero (m := 8) (n := 8) rfl hhigh)
  · rw [readWord_of_tag_two htag] at h
    rw [wordOf_of_readVal_eq h]
    exact outWord_ext (by rw [htag, tagOf_valWord]) (valueOf_valWord _)
  · rw [readWord_of_tag_three htag] at h
    obtain ⟨op, code, rfl, -, hvalue⟩ := exists_status_of_readStatus_eq h
    exact outWord_ext ((tagOf_statusWord op code).trans htag.symm) hvalue

/-- A form the block can produce is read back as itself. -/
theorem readWord_wordOf {l : Listing} (h : ∀ op code, l = .status op code → statusProduced op code = true) :
    readWord (wordOf l) = some l := by
  cases l with
  | sym c => exact readWord_symWord c
  | byte b => exact readWord_byteWord b
  | val v => exact (readWord_valWord _).trans (readVal_symVal v)
  | valPad => rfl
  | valInvalid => rfl
  | status op code => rw [wordOf, readWord_statusWord, if_pos (h op code rfl)]

theorem high_zero_iff_lt {V : BitVec 16} : V.extractLsb' 8 8 = 0#8 ↔ V.toNat < 256 := by
  have := V.isLt
  rw [← BitVec.toNat_inj, BitVec.extractLsb'_toNat, Nat.shiftRight_eq_div_pow]
  simp
  omega

/-- A STATUS word is read when it is the word of a pair the table allows (30_encoding.md R67). -/
theorem readStatus_eq_none_iff {w : OutWord} (htag : tagOf w = 3) :
    readStatus (valueOf w) = none ↔ ¬ ∃ op code, w = statusWord op code ∧ statusProduced op code = true := by
  rw [← readWord_of_tag_three htag]
  constructor
  · rintro h ⟨op, code, rfl, hprod⟩
    rw [readWord_statusWord, if_pos hprod] at h
    cases h
  · intro h
    rw [Option.eq_none_iff_forall_ne_some]
    intro l hl
    obtain ⟨op, code, rfl, hprod, -⟩ := exists_status_of_readStatus_eq ((readWord_of_tag_three htag).symm.trans hl)
    exact h ⟨op, code, (wordOf_of_readWord_eq hl).symm, hprod⟩

/-- The words that are not read (30_encoding.md R67). -/
theorem producible_eq_false_iff (w : OutWord) : producible w = false ↔
    (tagOf w = 1 ∧ 256 ≤ (valueOf w).toNat) ∨
    (tagOf w = 2 ∧ 0x20 < (valueOf w).toNat ∧ (valueOf w).toNat ≠ 0x40) ∨
    (tagOf w = 3 ∧ ¬ ∃ op code, w = statusWord op code ∧ statusProduced op code = true) := by
  rw [producible, Option.isSome_eq_false_iff, Option.isNone_iff_eq_none]
  obtain htag | htag | htag | htag := tag_cases (tagOf w)
  · simp [readWord_of_tag_zero htag, htag]
  · simp [readWord_of_tag_one htag, htag, high_zero_iff_lt]
  · simp [readWord_of_tag_two htag, htag, readVal_eq_none_iff]
  · rw [readWord_of_tag_three htag, readStatus_eq_none_iff htag]
    simp [htag]

/-- The pairs of a STATUS word, by opcode (30_encoding.md R67). -/
theorem statusProduced_iff (op : Opcode) (code : StatusCode) : statusProduced op code = true ↔
    (op.toNat = 3 ∧ code ∈ [.ok, .badOperand]) ∨
    (op.toNat = 6 ∧ code ∈ [.ok, .invalidSymbol, .badOperand]) ∨
    (op.toNat ∈ [0, 1, 2, 4, 7] ∧ code = .badOperand) ∨ (0xA ≤ op.toNat ∧ code = .illegalOpcode) := by
  revert op
  cases code <;> decide

/-- Settles O9: the readers answer a word's own form, and every word a command emits is one that is read. -/
theorem listingReadsWordsBack : Obligations.ListingReadsWordsBack := by
  refine ⟨fun _ _ => wordOf_of_readWord_eq, fun _ => readWord_wordOf, producible_eq_false_iff, statusProduced_iff, ?_⟩
  intro C s w hw
  rw [emittedBy_eq] at hw
  exact producible_of_mem_emits hw

end Sys2Proof.Machine
end

section
/-!
PROOFS. `MAXOUT` is met (30_encoding.md R69): how many words each command emits, and for each budget a state that uses it up.
-/
namespace Sys2Proof.Machine

theorem emittedBy_of_decodeCmd_eq {C : CmdWord} {d : Decoded} (h : decodeCmd C = d) (s : State) :
    emittedBy C s = emits s.cfg s.enc s.dec d := by
  rw [emittedBy_eq, h]

theorem emittedBy_encode (i : Instr) (s : State) : emittedBy (encode i) s = emits s.cfg s.enc s.dec (.cmd i) :=
  emittedBy_of_decodeCmd_eq (decodeCmd_encode i) s

/-- ENC_BYTE emits a word for each complete group (41_encoder.md R87). -/
theorem length_emittedBy_encByte (byte : Byte) (s : State) :
    (emittedBy (encode (.encByte byte)) s).length = (s.enc.nbits.toNat + 8) / 5 := by
  rw [emittedBy_encode, emits, List.length_map, encGroups_length]

/-- Settles O19. Two pending bits and a byte are two groups. A frame that ends with one pending bit and no symbol yet emits
the fill symbol, seven padding symbols and the status. Three pending bits and a symbol are a byte. -/
theorem outputBudgetIsTheMaximum : Obligations.OutputBudgetIsTheMaximum := by
  refine ⟨?bound, fun _ _ _ _ => ⟨rfl, rfl, rfl, rfl, rfl, rfl, rfl, rfl, rfl, rfl, rfl, rfl⟩,
    ?encByte, ?encEnd, ?decChar, ?decEnd, ?mapVal, ?mapSym, ?stripChar, ?illegal, ?badOperand⟩
  case bound =>
    intro C s henc
    rw [emittedBy_eq]
    exact length_emits_le henc _ _
  case encByte =>
    exact fun byte => ⟨{ State.reset with enc := ⟨0, 2, 0⟩ }, rfl, length_emittedBy_encByte byte _⟩
  case encEnd => exact ⟨{ State.reset with enc := ⟨0, 1, 0⟩ }, rfl, by decide⟩
  case decChar => exact ⟨{ State.reset with dec := ⟨0, 3, false⟩ }, 0x41, rfl, rfl, by decide +kernel⟩
  case decEnd => exact fun s => congrArg List.length (emittedBy_encode .decEnd s)
  case mapVal => exact fun s val => congrArg List.length (emittedBy_encode (.mapVal val) s)
  case mapSym => exact fun s ch => congrArg List.length (emittedBy_encode (.mapSym ch) s)
  case stripChar => exact ⟨State.reset, 0x41, by decide⟩
  case illegal => exact fun C s op h => congrArg List.length (emittedBy_of_decodeCmd_eq h s)
  case badOperand => exact fun C s op h => congrArg List.length (emittedBy_of_decodeCmd_eq h s)

end Sys2Proof.Machine
end

section
/-!
PROOFS. The assembler's pseudo-instructions (30_encoding.md R70, R71): codes that come from bytes or characters are in range,
and each becomes its command.
-/
namespace Sys2Proof.Machine

theorem assemble_eq_none_iff {l : AsmLine} : assemble l = none ↔ l.wf = false := by
  simp [assemble]

theorem assemble_of_wf {l : AsmLine} (h : l.wf = true) : assemble l = some (expand l) := if_pos h

section
variable {w : Nat} (xs : List (BitVec w))

theorem all_le_map_toNat {k : Nat} (hk : 2 ^ w ≤ k + 1) : (xs.map BitVec.toNat).all (fun n => decide (n ≤ k)) = true := by
  simp only [List.all_map, List.all_eq_true, Function.comp_apply, decide_eq_true_eq]
  intro x _
  have := x.isLt
  omega

theorem map_ofNat_map_toNat {α : Type} (f : BitVec w → α) :
    (xs.map BitVec.toNat).map (fun n => f (BitVec.ofNat w n)) = xs.map f := by
  simp

end

/-- The codes of bytes are in range for `ENCODE` (30_encoding.md R70). -/
theorem all_byteInRange_map_toNat (bytes : List Byte) : (bytes.map BitVec.toNat).all byteInRange = true :=
  all_le_map_toNat bytes (by decide)

/-- The codes of characters are in range for `DECODE` and `STRIP` (30_encoding.md R70). -/
theorem all_charInRange_map_toNat (text : List Character) : (text.map BitVec.toNat).all charInRange = true :=
  all_le_map_toNat text (by decide)

theorem encodeCmds_map_toNat (bytes : List Byte) :
    encodeCmds (bytes.map BitVec.toNat) = bytes.map (fun b => encode (.encByte b)) ++ [encode .encEnd] :=
  congrArg (· ++ [encode .encEnd]) (map_ofNat_map_toNat bytes fun b => encode (.encByte b))

/-- Settles O10: a line in range is its expansion, in which each code stands for the byte or character it came from. -/
theorem assemblerExpandsPseudoInstructions : Obligations.AssemblerExpandsPseudoInstructions := by
  refine ⟨fun _ => assemble_eq_none_iff, ?encodeBytes, ?encodeText, ?refused, ?decodeText, ?stripText, rfl, rfl⟩
  case encodeBytes =>
    intro bytes
    rw [assemble_of_wf (l := .encodeBytes _) (all_byteInRange_map_toNat bytes), expand, encodeCmds_map_toNat]
  case encodeText =>
    intro bytes
    rw [assemble_of_wf (l := .encodeText _) (all_byteInRange_map_toNat bytes), expand, encodeCmds_map_toNat]
  case refused =>
    intro codes
    simp [assemble_eq_none_iff, AsmLine.wf, byteInRange]
  case decodeText =>
    intro text
    rw [assemble_of_wf (l := .decodeText _) (all_charInRange_map_toNat text), expand,
      map_ofNat_map_toNat text fun c => encode (.decChar c)]
  case stripText =>
    intro text
    rw [assemble_of_wf (l := .stripText _) (all_charInRange_map_toNat text), expand,
      map_ofNat_map_toNat text fun c => encode (.stripChar c)]

end Sys2Proof.Machine
end

section
/-!
PROOFS. Bit sequences (00_scope.md R12): `num` of a joined sequence, and that a stream cut into groups of `w` bits and the
groups' bits written out are inverse to each other. The bits after the last whole group are what a unit keeps pending.
-/
namespace Sys2Proof.Machine

theorem num_concat (bs : List Bool) (b : Bool) : num (bs ++ [b]) = 2 * num bs + b.toNat := by simp [num]

theorem num_append (as bs : List Bool) : num (as ++ bs) = num as * 2 ^ bs.length + num bs := by
  induction bs using List.reverseRecOn with
  | nil => simp [num]
  | append_singleton bs b ih =>
    rw [← List.append_assoc, num_concat, num_concat, ih, List.length_append, List.length_singleton, Nat.pow_succ]
    ring

theorem num_lt (bs : List Bool) : num bs < 2 ^ bs.length := by
  induction bs using List.reverseRecOn with
  | nil => simp [num]
  | append_singleton bs b ih =>
    have hb := b.toNat_le
    rw [num_concat, List.length_append, List.length_singleton, Nat.pow_succ]
    omega

section
variable (k : Nat) (bs : List Bool)

/-- A sequence cut after its first `k` bits. -/
theorem num_eq_take_add_drop : num bs = num (bs.take k) * 2 ^ (bs.length - k) + num (bs.drop k) := by
  rw [← List.length_drop, ← num_append, List.take_append_drop]

theorem num_drop_lt : num (bs.drop k) < 2 ^ (bs.length - k) := List.length_drop (i := k) (l := bs) ▸ num_lt _

/-- The first `k` bits are the high bits. -/
theorem num_take : num (bs.take k) = num bs / 2 ^ (bs.length - k) := by
  rw [num_eq_take_add_drop k bs, Nat.mul_comm, Nat.mul_add_div (Nat.two_pow_pos _),
    Nat.div_eq_of_lt (num_drop_lt k bs), Nat.add_zero]

/-- The bits after the first `k` are the low bits. -/
theorem num_drop : num (bs.drop k) = num bs % 2 ^ (bs.length - k) := by
  rw [num_eq_take_add_drop k bs, Nat.mul_add_mod_self_right, Nat.mod_eq_of_lt (num_drop_lt k bs)]

end

/-- A sequence is its length and its value. -/
theorem eq_of_num_eq {as bs : List Bool} (hl : as.length = bs.length) (h : num as = num bs) : as = bs := by
  induction as using List.reverseRecOn generalizing bs with
  | nil => exact (List.length_eq_zero_iff.mp hl.symm).symm
  | append_singleton as a ih =>
    cases bs using List.reverseRecOn with
    | nil => simp at hl
    | append_singleton bs b =>
      rw [num_concat, num_concat] at h
      have ha := a.toNat_le
      have hb := b.toNat_le
      have hab : a = b := Bool.eq_iff_iff.mpr (by rw [← Bool.toNat_eq_one, ← Bool.toNat_eq_one]; omega)
      rw [ih (by simpa using hl) (by omega), hab]

@[simp] theorem num_replicate_false (n : Nat) : num (List.replicate n false) = 0 := by
  induction n with
  | zero => rfl
  | succ n ih => rw [List.replicate_succ', num_concat, ih]; rfl

@[simp] theorem length_bitsOf {n : Nat} (v : BitVec n) : (bitsOf v).length = n := by simp [bitsOf]

/-- The first `k` bits of a value are its high bits. -/
theorem num_map_getMsbD {n k : Nat} (v : BitVec n) (hk : k ≤ n) :
    num ((List.range k).map v.getMsbD) = v.toNat / 2 ^ (n - k) := by
  induction k with
  | zero => simp [num, Nat.div_eq_of_lt v.isLt]
  | succ k ih =>
    have hbit : (v.getMsbD k).toNat = v.toNat / 2 ^ (n - (k + 1)) % 2 := by
      rw [BitVec.getMsbD_eq_getLsbD, ← BitVec.testBit_toNat, decide_eq_true (by omega), Bool.true_and,
        Nat.toNat_testBit, show n - 1 - k = n - (k + 1) by omega]
    have hhalf : v.toNat / 2 ^ (n - k) = v.toNat / 2 ^ (n - (k + 1)) / 2 := by
      rw [Nat.div_div_eq_div_mul, ← Nat.pow_succ, show (n - (k + 1)).succ = n - k by omega]
    rw [List.range_succ, List.map_append, List.map_singleton, num_concat, ih (by omega), hbit, hhalf]
    omega

/-- `num` undoes `bitsOf` (00_scope.md R12). -/
@[simp] theorem num_bitsOf {n : Nat} (v : BitVec n) : num (bitsOf v) = v.toNat := by
  rw [bitsOf, num_map_getMsbD v (Nat.le_refl n)]
  simp

/-- The groups of `w` bits a stream holds whole, in order. -/
def wholeGroups (w : Nat) (S : List Bool) : List (BitVec w) :=
  (List.range (S.length / w)).map fun i => BitVec.ofNat w (groupAt w S i)

/-- The bits of a stream after its last whole group. -/
def leftover (w : Nat) (S : List Bool) : List Bool := S.drop (w * (S.length / w))

theorem length_leftover (w : Nat) (S : List Bool) : (leftover w S).length = S.length % w := by
  rw [leftover, List.length_drop, Nat.mod_eq_sub]

section
variable {w : Nat} {S : List Bool}

theorem wholeGroups_of_length_lt (h : S.length < w) : wholeGroups w S = [] := by
  simp [wholeGroups, Nat.div_eq_of_lt h]

theorem wholeGroups_of_length_eq (hw : 0 < w) (h : S.length = w) : wholeGroups w S = [BitVec.ofNat w (num S)] := by
  simp [wholeGroups, groupAt, h, Nat.div_self hw, List.take_of_length_le h.le]

/-- Groups do not reach over a place that is a multiple of `w`. -/
theorem wholeGroups_append_of_dvd (hw : 0 < w) (h : w ∣ S.length) (T : List Bool) :
    wholeGroups w (S ++ T) = wholeGroups w S ++ wholeGroups w T := by
  obtain ⟨m, hm⟩ := h
  have hcount : (S ++ T).length / w = m + T.length / w := by
    rw [List.length_append, hm, Nat.mul_add_div hw]
  have hfirst : ∀ i ∈ List.range m, groupAt w (S ++ T) i = groupAt w S i := by
    intro i hi
    have hle : w * i + w ≤ w * m := Nat.mul_le_mul_left w (List.mem_range.mp hi)
    rw [groupAt, List.drop_append_of_le_length (by omega), List.take_append_of_le_length (by simp; omega), groupAt]
  have hsecond : ∀ i, groupAt w (S ++ T) (m + i) = groupAt w T i := by
    intro i
    rw [groupAt, Nat.mul_add, ← hm, ← List.drop_drop, List.drop_left, groupAt]
  rw [wholeGroups, wholeGroups, wholeGroups, hcount, hm, Nat.mul_div_cancel_left m hw, List.range_add,
    List.map_append, List.map_map]
  congr 1
  · exact List.map_congr_left fun i hi => congrArg _ (hfirst i hi)
  · exact List.map_congr_left fun i _ => congrArg _ (hsecond i)

/-- Cutting a longer stream: the whole groups of its first part, then those of what is left of it and the rest. -/
theorem wholeGroups_append (hw : 0 < w) (S T : List Bool) :
    wholeGroups w (S ++ T) = wholeGroups w S ++ wholeGroups w (leftover w S ++ T) := by
  have hle : w * (S.length / w) ≤ S.length := Nat.mul_div_le _ _
  have hdvd : w ∣ (S.take (w * (S.length / w))).length := by simp [hle]
  have hsplit : S = S.take (w * (S.length / w)) ++ leftover w S := (List.take_append_drop _ S).symm
  have hnone : wholeGroups w (leftover w S) = [] :=
    wholeGroups_of_length_lt (by rw [length_leftover]; exact Nat.mod_lt _ hw)
  have hwhole : wholeGroups w S = wholeGroups w (S.take (w * (S.length / w))) := by
    conv_lhs => rw [hsplit]
    rw [wholeGroups_append_of_dvd hw hdvd, hnone, List.append_nil]
  conv_lhs => rw [hsplit]
  rw [List.append_assoc, wholeGroups_append_of_dvd hw hdvd, ← hwhole]

/-- The first group of a stream is its high bits. -/
theorem wholeGroups_of_le (hw : 0 < w) (h : w ≤ S.length) :
    wholeGroups w S = BitVec.ofNat w (num S / 2 ^ (S.length - w)) :: wholeGroups w (S.drop w) := by
  have hlen : (S.take w).length = w := List.length_take_of_le h
  conv_lhs => rw [← List.take_append_drop w S]
  rw [wholeGroups_append_of_dvd hw (by rw [hlen]), wholeGroups_of_length_eq hw hlen, num_take, List.singleton_append]

/-- What is left of a stream, as a number: its low bits. -/
theorem num_leftover (w : Nat) (S : List Bool) : num (leftover w S) = num S % 2 ^ (S.length % w) := by
  rw [leftover, num_drop, ← Nat.mod_eq_sub]

theorem bitsOf_ofNat_num (h : S.length = w) : bitsOf (BitVec.ofNat w (num S)) = S :=
  eq_of_num_eq (by simp [h]) (by rw [num_bitsOf, BitVec.toNat_ofNat, Nat.mod_eq_of_lt (h ▸ num_lt S)])

/-- The bits of values, cut into groups, are the values again. -/
theorem wholeGroups_flatMap_bitsOf (hw : 0 < w) (vs : List (BitVec w)) : wholeGroups w (vs.flatMap bitsOf) = vs := by
  induction vs with
  | nil => simp [wholeGroups]
  | cons v vs ih =>
    rw [List.flatMap_cons, wholeGroups_append_of_dvd hw (by simp), ih, wholeGroups_of_length_eq hw (by simp)]
    simp

/-- A stream of whole groups is the bits of its groups. -/
theorem flatMap_bitsOf_wholeGroups (hw : 0 < w) (h : w ∣ S.length) : (wholeGroups w S).flatMap bitsOf = S := by
  obtain ⟨m, hm⟩ := h
  induction m generalizing S with
  | zero =>
    obtain rfl := List.length_eq_zero_iff.mp hm
    simp [wholeGroups]
  | succ m ih =>
    have hhead : (S.take w).length = w := by simp [hm, Nat.mul_succ]
    have htail : (S.drop w).length = w * m := by simp [hm, Nat.mul_succ]
    rw [wholeGroups_of_le hw (by simp [hm, Nat.mul_succ]), List.flatMap_cons, ih htail, ← num_take,
      bitsOf_ofNat_num hhead, List.take_append_drop]

end

end Sys2Proof.Machine
end

section
/-!
PROOFS. The reference functions `ENCODE` and `DECODE` (40_reference_functions.md R75-R82). ENCODE's groups are the whole
groups of the filled stream, so DECODE's bit stream is the byte stream and fewer than 8 fill bits.
-/
namespace Sys2Proof.Machine

@[simp] theorem length_byteStream (bytes : List Byte) : (byteStream bytes).length = 8 * bytes.length := by
  induction bytes with
  | nil => rfl
  | cons b bytes ih =>
    rw [byteStream, List.flatMap_cons, ← byteStream, List.length_append, length_bitsOf, ih, List.length_cons]
    omega

/-- The 0 bits that fill the last group (R77). -/
def fillBits (S : List Bool) : List Bool := List.replicate (5 * groupCount S.length - S.length) false

theorem length_append_fillBits (S : List Bool) : (S ++ fillBits S).length = 5 * groupCount S.length := by
  simp only [fillBits, List.length_append, List.length_replicate, groupCount]
  omega

theorem length_fillBits_lt (S : List Bool) : (fillBits S).length < 8 := by
  simp only [fillBits, List.length_replicate, groupCount]
  omega

theorem encodeGroups_eq_wholeGroups (S : List Bool) : encodeGroups S = wholeGroups 5 (S ++ fillBits S) := by
  rw [wholeGroups, length_append_fillBits, Nat.mul_div_cancel_left _ (by decide), encodeGroups, fillBits]

@[simp] theorem length_encodeGroups (S : List Bool) : (encodeGroups S).length = groupCount S.length := by
  simp [encodeGroups]

/-- Encoding a longer stream: the whole groups of its first part, then what is left of it with the rest. -/
theorem encodeGroups_append (S T : List Bool) :
    encodeGroups (S ++ T) = wholeGroups 5 S ++ encodeGroups (leftover 5 S ++ T) := by
  have hfill : fillBits (S ++ T) = fillBits (leftover 5 S ++ T) := by
    simp only [fillBits, groupCount, List.length_append, length_leftover]
    congr 1
    omega
  rw [encodeGroups_eq_wholeGroups, List.append_assoc, wholeGroups_append (by decide), ← List.append_assoc, hfill,
    ← encodeGroups_eq_wholeGroups]

/-- The bits of ENCODE's groups are the stream and its fill bits. -/
theorem symStream_encodeGroups (S : List Bool) : symStream (encodeGroups S) = S ++ fillBits S := by
  rw [encodeGroups_eq_wholeGroups]
  exact flatMap_bitsOf_wholeGroups (by decide) (length_append_fillBits S ▸ Nat.dvd_mul_right 5 _)

theorem decodeBytes_eq_wholeGroups (S : List Bool) : decodeBytes S = wholeGroups 8 S := rfl

/-- DECODE's last steps recover the bytes; the fill bits make no byte. -/
theorem decodeBytes_symStream_encodeGroups (bytes : List Byte) :
    decodeBytes (symStream (encodeGroups (byteStream bytes))) = bytes := by
  rw [symStream_encodeGroups, decodeBytes_eq_wholeGroups, wholeGroups_append_of_dvd (by decide) (by simp),
    wholeGroups_of_length_lt (length_fillBits_lt _), List.append_nil]
  exact wholeGroups_flatMap_bitsOf (by decide) bytes

/-- How many padding symbols follow `n` symbols (R79). -/
def padCount (n : Nat) : Nat := (8 - n % 8) % 8

theorem padText_eq (cfg : Config) (syms : List Character) :
    padText cfg syms = syms ++ List.replicate (padCount syms.length) cfg.pad := by
  unfold padText padCount
  split
  case isTrue h => simp [h]
  case isFalse h => rw [Nat.mod_eq_of_lt (a := 8 - syms.length % 8) (by omega)]

/-- `ENCODE` is the symbols of the groups, then padding (R78, R79). -/
theorem refEncode_eq (cfg : Config) (bytes : List Byte) :
    refEncode cfg bytes = (encodeGroups (byteStream bytes)).map (symbolOf cfg) ++
      List.replicate (padCount (groupCount (8 * bytes.length))) cfg.pad := by
  simp [refEncode, padText_eq]

/-- A character that makes `DECODE` fail (R81): neither padding nor in the alphabet. -/
def isForeign (cfg : Config) (c : Character) : Bool := c != cfg.pad && (inv cfg c).isNone

theorem isForeign_iff {cfg : Config} {c : Character} : isForeign cfg c = true ↔ c ≠ cfg.pad ∧ inv cfg c = none := by
  simp [isForeign]

@[simp] theorem isForeign_pad (cfg : Config) : isForeign cfg cfg.pad = false := by simp [isForeign]

@[simp] theorem isForeign_symbolOf (cfg : Config) (v : SymVal) : isForeign cfg (symbolOf cfg v) = false := by
  simp [isForeign, inv_symbolOf]

/-- `DECODE` on the text as it is: padding is neither foreign nor a symbol. -/
theorem refDecode_eq (cfg : Config) (text : List Character) :
    refDecode cfg text = if text.any (isForeign cfg) then .decodeError
      else .ok (decodeBytes (symStream (text.filterMap (inv cfg)))) := by
  have hvals : (stripPad cfg text).filterMap (inv cfg) = text.filterMap (inv cfg) := by
    rw [stripPad, List.filterMap_filter]
    congr 1
    funext c
    by_cases hc : c = cfg.pad <;> simp [hc, inv_pad]
  rw [refDecode, hvals, stripPad, List.any_filter]
  rfl

theorem refDecode_eq_decodeError_iff {cfg : Config} {text : List Character} :
    refDecode cfg text = .decodeError ↔ text.any (isForeign cfg) = true := by
  rw [refDecode_eq]
  split <;> simp [*]

theorem refDecode_eq_ok_iff {cfg : Config} {text : List Character} {bs : List Byte} :
    refDecode cfg text = .ok bs ↔
      text.any (isForeign cfg) = false ∧ decodeBytes (symStream (text.filterMap (inv cfg))) = bs := by
  rw [refDecode_eq]
  split <;> simp [*]

/-- Settles O54: a text fails by a foreign character and by nothing else. -/
theorem decodeFailsOnlyOnForeignCharacters : Obligations.DecodeFailsOnlyOnForeignCharacters := by
  intro cfg text
  simp only [refDecode_eq_decodeError_iff, List.any_eq_true, isForeign_iff]

/-- The values of ENCODE's text are its groups: each symbol has its value, and padding has none. -/
theorem filterMap_inv_refEncode (cfg : Config) (bytes : List Byte) :
    (refEncode cfg bytes).filterMap (inv cfg) = encodeGroups (byteStream bytes) := by
  have hsyms : inv cfg ∘ symbolOf cfg = some := funext (inv_symbolOf cfg)
  rw [refEncode_eq, List.filterMap_append, List.filterMap_map, hsyms, List.filterMap_some,
    List.filterMap_replicate_of_none (inv_pad cfg), List.append_nil]

theorem any_isForeign_refEncode (cfg : Config) (bytes : List Byte) :
    (refEncode cfg bytes).any (isForeign cfg) = false := by
  simp [refEncode_eq]

/-- Settles O51: DECODE's stream is ENCODE's stream with its fill bits. -/
theorem decodeUndoesEncodeOfText : Obligations.DecodeUndoesEncodeOfText := by
  intro cfg bytes
  rw [refDecode_eq_ok_iff, filterMap_inv_refEncode]
  exact ⟨any_isForeign_refEncode cfg bytes, decodeBytes_symStream_encodeGroups bytes⟩

/-- The padding of ENCODE's text: no symbol is the padding character. -/
theorem filter_pad_refEncode (cfg : Config) (bytes : List Byte) :
    (refEncode cfg bytes).filter (fun c => c == cfg.pad) =
      List.replicate (padCount (groupCount (8 * bytes.length))) cfg.pad := by
  simp [refEncode_eq, List.filter_map, Function.comp_def, symbolOf_ne_pad]

/-- The rest of ENCODE's text: the symbols of its groups. -/
theorem stripPad_refEncode (cfg : Config) (bytes : List Byte) :
    stripPad cfg (refEncode cfg bytes) = (encodeGroups (byteStream bytes)).map (symbolOf cfg) := by
  have hkept : ∀ v, (symbolOf cfg v != cfg.pad) = true := fun v => bne_iff_ne.mpr (symbolOf_ne_pad cfg v)
  simp [stripPad, refEncode_eq, List.filter_map, Function.comp_def, hkept]

theorem length_refEncode (cfg : Config) (bytes : List Byte) : (refEncode cfg bytes).length =
    groupCount (8 * bytes.length) + padCount (groupCount (8 * bytes.length)) := by
  simp [refEncode_eq]

/-- Each full 5 bytes are 8 groups. -/
theorem groupCount_eight_mul (k : Nat) : groupCount (8 * k) = 8 * (k / 5) + groupCount (8 * (k % 5)) := by
  unfold groupCount
  omega

/-- Settles O53: the counts follow from the number of groups, `ceil(8k / 5)`. -/
theorem encodedLengthAndPadding : Obligations.EncodedLengthAndPadding := by
  intro cfg bytes
  have hempty : bytes = [] → refEncode cfg bytes = [] := by rintro rfl; rfl
  have hsyms := congrArg List.length (stripPad_refEncode cfg bytes)
  rw [stripPad, List.length_map, length_encodeGroups, length_byteStream] at hsyms
  dsimp only
  rw [length_refEncode, length_encodeGroups, length_byteStream, filter_pad_refEncode, List.length_replicate, hsyms]
  refine ⟨by unfold padCount groupCount; omega, hempty, rfl, ?_⟩
  have hr := Nat.mod_lt bytes.length (show 5 > 0 by decide)
  rw [groupCount_eight_mul]
  generalize bytes.length / 5 = q
  generalize bytes.length % 5 = r at hr ⊢
  unfold padCount groupCount
  interval_cases r <;> simp [Nat.add_mod]

end Sys2Proof.Machine
end

section
/-!
PROOFS. The units' accumulators as bit sequences (41_encoder.md R87, R88, R91; 42_decoder.md R95, R102): a unit holds the
bits of its stream that make no whole group yet, and a byte or a symbol emits the groups it completes.
-/
namespace Sys2Proof.Machine

/-- An accumulator `acc` with `nbits` pending bits holds the sequence `p`, too short for a group of `w` bits. -/
structure Pending (w acc nbits : Nat) (p : List Bool) : Prop where
  length_lt : p.length < w
  nbits_eq : nbits = p.length
  acc_eq : acc = num p

theorem pending_empty {w : Nat} (hw : 0 < w) : Pending w 0 0 [] := ⟨hw, rfl, rfl⟩

/-- The low bits of a stream, as many as are left after its whole groups, are pending. -/
theorem pending_leftover {w : Nat} (hw : 0 < w) (S : List Bool) :
    Pending w (num S % 2 ^ (S.length % w)) (S.length % w) (leftover w S) where
  length_lt := by rw [length_leftover]; exact Nat.mod_lt _ hw
  nbits_eq := (length_leftover w S).symm
  acc_eq := (num_leftover w S).symm

/-- The encoder's loop cuts the pending bits of its 12-bit accumulator into groups (41_encoder.md R87). -/
theorem takeGroups_eq_wholeGroups {acc : BitVec 12} {n : Nat} {S : List Bool} (hn : S.length = n)
    (hacc : acc.toNat % 2 ^ n = num S) : (takeGroups acc n).1 = wholeGroups 5 S := by
  induction n using Nat.strongRecOn generalizing S with
  | ind n ih =>
    by_cases hlt : n < 5
    · rw [takeGroups_of_lt hlt, wholeGroups_of_length_lt (hn ▸ hlt)]
    · obtain ⟨m, rfl⟩ : ∃ m, n = m + 5 := ⟨n - 5, by omega⟩
      have hrest : acc.toNat % 2 ^ m = num (S.drop 5) := by
        rw [num_drop, hn, ← hacc, Nat.add_sub_cancel, Nat.mod_mod_of_dvd _ (Nat.pow_dvd_pow 2 (by omega))]
      have hgroup : (acc >>> m).setWidth 5 = BitVec.ofNat 5 (num S / 2 ^ (S.length - 5)) := by
        apply BitVec.eq_of_toNat_eq
        rw [toNat_group, BitVec.toNat_ofNat, hn, ← hacc, Nat.add_sub_cancel, Nat.pow_add, Nat.mod_mul_right_div_self,
          Nat.mod_mod]
      rw [takeGroups_add_five, wholeGroups_of_le (by decide) (by omega), ← ih m (by omega) (by simp [hn]) hrest, hgroup]

section
variable {e : EncUnit} {p : List Bool} (hp : Pending 5 e.acc.toNat e.nbits.toNat p)
include hp

/-- A byte completes the whole groups of the pending bits and its own (41_encoder.md R87). -/
theorem Pending.encGroups_eq (byte : Byte) : (encGroups e byte).1 = wholeGroups 5 (p ++ bitsOf byte) := by
  have hlt := num_lt (p ++ bitsOf byte)
  have hlen : (p ++ bitsOf byte).length = e.nbits.toNat + 8 := by simp [hp.nbits_eq]
  refine takeGroups_eq_wholeGroups hlen ?_
  rw [toNat_shiftInByte, ← hlen, hp.acc_eq, ← Nat.mod_eq_of_lt hlt, num_append]
  simp

/-- After a byte the encoder holds what is left (41_encoder.md R87). -/
theorem Pending.encAfterByte (byte : Byte) :
    Pending 5 (encAfterByte e byte).acc.toNat (encAfterByte e byte).nbits.toNat (leftover 5 (p ++ bitsOf byte)) := by
  have h := pending_leftover (w := 5) (by decide) (p ++ bitsOf byte)
  rw [acc_encAfterByte, nbits_encAfterByte, hp.acc_eq, hp.nbits_eq]
  simpa [num_append] using h

/-- The groups ENC_END makes of the pending bits: the fill group, if there are any (41_encoder.md R88). -/
theorem Pending.fillWords_eq (cfg : Config) :
    fillWords cfg e = (encodeGroups p).map fun g => symWord (symbolOf cfg g) := by
  unfold fillWords
  split
  case isTrue hpos =>
    have hlen : (p ++ fillBits p).length = 5 := by
      have := hp.length_lt
      have := hp.nbits_eq
      rw [length_append_fillBits, groupCount]
      omega
    have hfill : fillGroup e.acc e.nbits = BitVec.ofNat 5 (num (p ++ fillBits p)) := by
      apply BitVec.eq_of_toNat_eq
      rw [List.length_append] at hlen
      rw [toNat_fillGroup, BitVec.toNat_ofNat, hp.acc_eq, hp.nbits_eq, num_append, fillBits, num_replicate_false,
        ← fillBits, Nat.add_zero, show 5 - p.length = (fillBits p).length by omega]
    rw [encodeGroups_eq_wholeGroups, wholeGroups_of_length_eq (by decide) hlen, ← hfill, List.map_singleton]
  case isFalse hzero =>
    obtain rfl : p = [] := List.length_eq_zero_iff.mp (by have := hp.nbits_eq; omega)
    rfl

/-- ENC_END counts the fill group in (41_encoder.md R88). -/
theorem Pending.toNat_endNsym : (endNsym e).toNat = (e.nsym.toNat + groupCount p.length) % 8 := by
  have hlt := hp.length_lt
  have hlen := hp.nbits_eq
  have hnsym := e.nsym.isLt
  unfold endNsym groupCount
  split
  case isTrue => rw [BitVec.toNat_add, show (p.length + 4) / 5 = 1 by omega]; rfl
  case isFalse => omega

end

/-- Padding symbols by the count of symbols (41_encoder.md R88). -/
theorem padWords_eq (cfg : Config) (nsym : BitVec 3) :
    padWords cfg nsym = List.replicate (padCount nsym.toNat) (symWord cfg.pad) := by
  refine List.eq_replicate_iff.mpr ⟨?_, fun w hw => ?_⟩
  · rw [length_padWords, padCount, Nat.mod_eq_of_lt nsym.isLt]
  · unfold padWords at hw
    split at hw
    · exact List.eq_of_mem_replicate hw
    · cases hw

section
variable {u : DecUnit} {p : List Bool} (hp : Pending 8 u.acc.toNat u.nbits.toNat p)
include hp

/-- A symbol completes the whole bytes of the pending bits and its own: one, or none (42_decoder.md R95). -/
theorem Pending.decBytes_eq (v : SymVal) : decBytes u v = wholeGroups 8 (p ++ bitsOf v) := by
  have hlt := hp.length_lt
  have hlen : (p ++ bitsOf v).length = u.nbits.toNat + 5 := by simp [hp.nbits_eq]
  have hnum : num (p ++ bitsOf v) = u.acc.toNat * 32 + v.toNat := by simp [num_append, hp.acc_eq]
  have hnbits := hp.nbits_eq
  unfold decBytes
  split
  case isTrue hle =>
    have hbyte : oldestByte (shiftInSym u.acc v) (u.nbits.toNat + 5) =
        BitVec.ofNat 8 (num (p ++ bitsOf v) / 2 ^ ((p ++ bitsOf v).length - 8)) := by
      apply BitVec.eq_of_toNat_eq
      rw [toNat_oldestByte, toNat_shiftInSym, BitVec.toNat_ofNat, hlen, hnum]
    rw [wholeGroups_of_le (by decide) (hlen ▸ hle), ← hbyte, wholeGroups_of_length_lt (by rw [List.length_drop]; omega)]
  case isFalse hnone => rw [wholeGroups_of_length_lt (by omega)]

/-- After a symbol the decoder holds what is left (42_decoder.md R95). -/
theorem Pending.decAfterSym (v : SymVal) :
    Pending 8 (decAfterSym u v).acc.toNat (decAfterSym u v).nbits.toNat (leftover 8 (p ++ bitsOf v)) := by
  have h := pending_leftover (w := 8) (by decide) (p ++ bitsOf v)
  rw [acc_decAfterSym, nbits_decAfterSym, hp.acc_eq, hp.nbits_eq]
  simpa [num_append] using h

end

end Sys2Proof.Machine
end

section
/-!
PROOFS. Encoder frames (40_reference_functions.md R83). What a frame emits is computed for the encoder's commands alone, by
induction on the bytes with the pending bits generalised; the unit's isolation carries it over to a frame with other
commands among it.
-/
namespace Sys2Proof.Machine

section
variable (ws vs : List OutWord)

theorem symsIn_append : symsIn (ws ++ vs) = symsIn ws ++ symsIn vs := by simp [symsIn]

theorem bytesIn_append : bytesIn (ws ++ vs) = bytesIn ws ++ bytesIn vs := by simp [bytesIn]

end

theorem symsIn_map_symWord (cs : List Character) : symsIn (cs.map symWord) = cs := by
  simp [symsIn, List.filter_map, Function.comp_def]

theorem bytesIn_map_byteWord (bs : List Byte) : bytesIn (bs.map byteWord) = bs := by
  simp [bytesIn, List.filter_map, Function.comp_def, tagOf_byteWord, valueOf_byteWord]

theorem symsIn_statusWord (op : Opcode) (code : StatusCode) : symsIn [statusWord op code] = [] := by
  simp [symsIn, tagOf_statusWord]

theorem bytesIn_statusWord (op : Opcode) (code : StatusCode) : bytesIn [statusWord op code] = [] := by
  simp [bytesIn, tagOf_statusWord]

theorem symsIn_prefix {ws vs : List OutWord} (h : ws <+: vs) : symsIn ws <+: symsIn vs := (h.filter _).map _

/-- The first commands emit the first words. -/
theorem wordsOf_take_prefix (keep : Instr → Bool) (is : List Instr) (s : State) (k : Nat) :
    wordsOf keep (is.take k) s <+: wordsOf keep is s := by
  induction is generalizing s k with
  | nil => simp
  | cons i is ih =>
    cases k with
    | zero => exact List.nil_prefix
    | succ k =>
      rw [List.take_succ_cons, wordsOf_cons, wordsOf_cons, List.prefix_append_right_inj]
      exact ih _ k

theorem wordsOf_encEnd (s : State) : wordsOf isEncCmd [.encEnd] s =
    fillWords s.cfg s.enc ++ padWords s.cfg (endNsym s.enc) ++ [statusWord 0x3 .ok] :=
  (wordsOf_cons _ _ _ _).trans (List.append_nil _)

/-- The words of a frame's bytes and its ENC_END, from an encoder with pending bits `p` after `n` symbols. -/
theorem wordsOf_encFrame_of_pending (bytes : List Byte) {s : State} {p : List Bool} {n : Nat}
    (hp : Pending 5 s.enc.acc.toNat s.enc.nbits.toNat p) (hn : s.enc.nsym.toNat = n % 8) :
    wordsOf isEncCmd (bytes.map Instr.encByte ++ [.encEnd]) s =
      ((encodeGroups (p ++ byteStream bytes)).map fun g => symWord (symbolOf s.cfg g)) ++
        List.replicate (padCount (n + groupCount (p ++ byteStream bytes).length)) (symWord s.cfg.pad) ++
        [statusWord 0x3 .ok] := by
  induction bytes generalizing s p n with
  | nil =>
    have hcount : padCount (endNsym s.enc).toNat = padCount (n + groupCount p.length) := by
      rw [hp.toNat_endNsym, hn, Nat.mod_add_mod, padCount, padCount, Nat.mod_mod]
    calc wordsOf isEncCmd [.encEnd] s
        = fillWords s.cfg s.enc ++ padWords s.cfg (endNsym s.enc) ++ [statusWord 0x3 .ok] := wordsOf_encEnd s
      _ = _ := by rw [hp.fillWords_eq, padWords_eq, hcount]; simp [byteStream]
  | cons b bytes ih =>
    have hstream : p ++ byteStream (b :: bytes) = (p ++ bitsOf b) ++ byteStream bytes := by simp [byteStream]
    have hgroups := encodeGroups_append (p ++ bitsOf b) (byteStream bytes)
    have hcount := congrArg List.length hgroups
    have hnsym : (encAfterByte s.enc b).nsym.toNat = (n + (wholeGroups 5 (p ++ bitsOf b)).length) % 8 := by
      rw [nsym_encAfterByte, hn, Nat.mod_add_mod, ← encGroups_length, hp.encGroups_eq]
    have hrest := ih (s := performed (.cmd (.encByte b)) s) (hp.encAfterByte b) hnsym
    rw [List.length_append, length_encodeGroups, length_encodeGroups] at hcount
    rw [List.map_cons, List.cons_append, wordsOf_cons, hrest, performed_cfg, hstream, hgroups, hcount, List.map_append,
      Nat.add_assoc]
    simp [isEncCmd, emits, hp.encGroups_eq]

/-- A frame from an empty encoder emits `ENCODE` of its bytes and the status (R83). -/
theorem wordsOf_encFrame (bytes : List Byte) {s : State} (he : s.enc = EncUnit.empty) :
    wordsOf isEncCmd (bytes.map Instr.encByte ++ [.encEnd]) s =
      (refEncode s.cfg bytes).map symWord ++ [statusWord 0x3 .ok] := by
  have hp : Pending 5 s.enc.acc.toNat s.enc.nbits.toNat [] := he ▸ pending_empty (by decide)
  rw [wordsOf_encFrame_of_pending bytes hp (n := 0) (by rw [he]; rfl), refEncode_eq]
  simp

/-- Commands among which ENC_END is the encoder's last leave the encoder empty. -/
theorem enc_performedAll_of_encEnd_last {is js : List Instr} (h : is.filter isEncCmd = js ++ [.encEnd]) (s : State) :
    (performedAll (is.map encode) s).enc = EncUnit.empty := by
  have hview := isolated_encoder.view_performedAll_filter is (Eq.refl (encView s))
  rw [(encView_eq_iff.mp hview).2, h, List.map_append, performedAll_append]
  simp [encAfter]

/-- Settles O49: what the encoder emits among other commands is what its frame emits alone. -/
theorem encoderFrameGivesEncode : Obligations.EncoderFrameGivesEncode := by
  intro s is bytes he hframe
  have hwords : wordsOf isEncCmd is s = (refEncode s.cfg bytes).map symWord ++ [statusWord 0x3 .ok] := by
    rw [isolated_encoder.wordsOf_filter is rfl, hframe, wordsOf_encFrame bytes he]
  have hsyms : symsIn (wordsOf isEncCmd is s) = refEncode s.cfg bytes := by
    rw [hwords, symsIn_append, symsIn_map_symWord, symsIn_statusWord, List.append_nil]
  refine ⟨⟨_, performWords_eq_performedAll _ _, enc_performedAll_of_encEnd_last hframe s⟩, hsyms, ?_, fun k => ?_⟩
  · rw [hwords, List.getLast?_concat]
  · exact hsyms ▸ symsIn_prefix (wordsOf_take_prefix isEncCmd is s k)

end Sys2Proof.Machine
end

section
/-!
PROOFS. Decoder frames (40_reference_functions.md R84), in the same way, by induction on the characters: a frame decodes its
text up to the first foreign character. With both units' frames, the round trip through the block (95_test_vectors.md V-P1).
-/
namespace Sys2Proof.Machine

section
variable {cfg : Config} {u : DecUnit} {c : Character}

/-- A failed frame ignores its characters (42_decoder.md R95). -/
theorem decChar_of_err (h : u.err = true) (e : EncUnit) :
    emits cfg e u (.cmd (.decChar c)) = [] ∧ decAfter cfg (.cmd (.decChar c)) u = u := by
  simp [emits, decAfter, h]

theorem decChar_of_padding (hk : classify cfg c = .padding) (e : EncUnit) :
    emits cfg e u (.cmd (.decChar c)) = [] ∧ decAfter cfg (.cmd (.decChar c)) u = u := by
  simp [emits, decAfter, hk]

theorem decChar_of_invalid (hk : classify cfg c = .invalid) (e : EncUnit) :
    emits cfg e u (.cmd (.decChar c)) = [] ∧ (decAfter cfg (.cmd (.decChar c)) u).err = true := by
  cases hu : u.err <;> simp [emits, decAfter, markInvalid, hk, hu]

theorem decChar_of_symbol {v : SymVal} (h : u.err = false) (hk : classify cfg c = .symbol v) (e : EncUnit) :
    emits cfg e u (.cmd (.decChar c)) = (decBytes u v).map byteWord ∧
      decAfter cfg (.cmd (.decChar c)) u = decAfterSym u v := by
  simp [emits, decAfter, h, hk]

end

theorem wordsOf_decChar_cons (c : Character) (is : List Instr) (s : State) :
    wordsOf isDecCmd (.decChar c :: is) s =
      emits s.cfg s.enc s.dec (.cmd (.decChar c)) ++ wordsOf isDecCmd is (performed (.cmd (.decChar c)) s) :=
  wordsOf_cons _ _ _ _

theorem wordsOf_decEnd (s : State) : wordsOf isDecCmd [.decEnd] s = [statusWord 0x6 (endCode s.dec)] :=
  (wordsOf_cons _ _ _ _).trans (List.append_nil _)

/-- A failed frame emits its status only (42_decoder.md R95, R96). -/
theorem wordsOf_decFrame_of_err (text : List Character) {s : State} (h : s.dec.err = true) :
    wordsOf isDecCmd (text.map Instr.decChar ++ [.decEnd]) s = [statusWord 0x6 .invalidSymbol] := by
  induction text generalizing s with
  | nil => simp [wordsOf_decEnd, endCode, h]
  | cons c text ih =>
    obtain ⟨hout, hdec⟩ := decChar_of_err (cfg := s.cfg) (c := c) h s.enc
    rw [List.map_cons, List.cons_append, wordsOf_decChar_cons, hout, List.nil_append]
    exact ih (by rw [performed_dec, hdec, h])

/-- The text before its first foreign character. -/
def beforeForeign (cfg : Config) (text : List Character) : List Character := text.takeWhile fun c => !isForeign cfg c

/-- What DEC_END reports of a text (42_decoder.md R96). -/
def textCode (cfg : Config) (text : List Character) : StatusCode :=
  if text.any (isForeign cfg) then .invalidSymbol else .ok

theorem beforeForeign_of_no_foreign {cfg : Config} {text : List Character} (h : text.any (isForeign cfg) = false) :
    beforeForeign cfg text = text := by
  rw [beforeForeign, List.takeWhile_eq_self_iff]
  simpa using h

theorem any_isForeign_beforeForeign (cfg : Config) (text : List Character) :
    (beforeForeign cfg text).any (isForeign cfg) = false := by
  rw [List.any_eq_false]
  intro c hc
  simpa using List.mem_takeWhile_imp hc

theorem refDecode_beforeForeign (cfg : Config) (text : List Character) : refDecode cfg (beforeForeign cfg text) =
    .ok (decodeBytes (symStream ((beforeForeign cfg text).filterMap (inv cfg)))) :=
  refDecode_eq_ok_iff.mpr ⟨any_isForeign_beforeForeign cfg text, rfl⟩

theorem take_length_beforeForeign (cfg : Config) (text : List Character) :
    text.take (beforeForeign cfg text).length = beforeForeign cfg text :=
  (List.prefix_iff_eq_take.mp (List.takeWhile_prefix _)).symm

section
variable {cfg : Config} {c : Character} {text : List Character}

theorem beforeForeign_cons_of_foreign (h : isForeign cfg c = true) : beforeForeign cfg (c :: text) = [] := by
  simp [beforeForeign, h]

theorem beforeForeign_cons (h : isForeign cfg c = false) :
    beforeForeign cfg (c :: text) = c :: beforeForeign cfg text := by
  simp [beforeForeign, h]

theorem textCode_cons_of_foreign (h : isForeign cfg c = true) : textCode cfg (c :: text) = .invalidSymbol := by
  simp [textCode, h]

theorem textCode_cons (h : isForeign cfg c = false) : textCode cfg (c :: text) = textCode cfg text := by
  simp [textCode, h]

end

/-- Where the text before the first foreign character ends, that character stands. -/
theorem exists_foreign_at_length_beforeForeign {cfg : Config} {text : List Character}
    (h : text.any (isForeign cfg) = true) :
    ∃ c, text[(beforeForeign cfg text).length]? = some c ∧ isForeign cfg c = true := by
  induction text with
  | nil => cases h
  | cons c text ih =>
    cases hc : isForeign cfg c with
    | true => exact ⟨c, by rw [beforeForeign_cons_of_foreign hc]; rfl, hc⟩
    | false =>
      rw [beforeForeign_cons hc, List.length_cons, List.getElem?_cons_succ]
      exact ih (by simpa [hc] using h)

/-- The words of a frame's characters and its DEC_END, from a decoder with pending bits `p` and no error. -/
theorem wordsOf_decFrame_of_pending (text : List Character) {s : State} {p : List Bool} (herr : s.dec.err = false)
    (hp : Pending 8 s.dec.acc.toNat s.dec.nbits.toNat p) :
    wordsOf isDecCmd (text.map Instr.decChar ++ [.decEnd]) s =
      (decodeBytes (p ++ symStream ((beforeForeign s.cfg text).filterMap (inv s.cfg)))).map byteWord ++
        [statusWord 0x6 (textCode s.cfg text)] := by
  induction text generalizing s p with
  | nil =>
    have hnone : decodeBytes p = [] := wholeGroups_of_length_lt hp.length_lt
    simp [wordsOf_decEnd, endCode, herr, beforeForeign, textCode, symStream, hnone]
  | cons c text ih =>
    rw [List.map_cons, List.cons_append, wordsOf_decChar_cons]
    obtain ⟨rfl, hk⟩ | ⟨hpad, hinv, hk⟩ | ⟨v, hpad, hinv, hk⟩ := classify_cases s.cfg c
    · obtain ⟨hout, hdec⟩ := decChar_of_padding (u := s.dec) hk s.enc
      have hrest := ih (s := performed (.cmd (.decChar s.cfg.pad)) s) (by rwa [performed_dec, hdec])
        (by rwa [performed_dec, hdec])
      rw [hout, hrest, performed_cfg, beforeForeign_cons (isForeign_pad _), textCode_cons (isForeign_pad _)]
      simp [inv_pad]
    · obtain ⟨hout, hdec⟩ := decChar_of_invalid (u := s.dec) hk s.enc
      have hforeign : isForeign s.cfg c = true := isForeign_iff.mpr ⟨hpad, hinv⟩
      have hnone : decodeBytes p = [] := wholeGroups_of_length_lt hp.length_lt
      rw [hout, wordsOf_decFrame_of_err text hdec, beforeForeign_cons_of_foreign hforeign,
        textCode_cons_of_foreign hforeign]
      simp [symStream, hnone]
    · obtain ⟨hout, hdec⟩ := decChar_of_symbol herr hk s.enc
      have hforeign : isForeign s.cfg c = false := by simp [isForeign, hinv]
      have hrest := ih (s := performed (.cmd (.decChar c)) s) (p := leftover 8 (p ++ bitsOf v))
        (by rw [performed_dec, hdec, err_decAfterSym, herr]) (by rw [performed_dec, hdec]; exact hp.decAfterSym v)
      have hbytes := wholeGroups_append (w := 8) (by decide) (p ++ bitsOf v)
        (symStream ((beforeForeign s.cfg text).filterMap (inv s.cfg)))
      rw [hout, hrest, performed_cfg, hp.decBytes_eq, beforeForeign_cons hforeign, textCode_cons hforeign,
        List.filterMap_cons_some hinv, ← List.append_assoc, ← List.map_append, decodeBytes_eq_wholeGroups, ← hbytes,
        decodeBytes_eq_wholeGroups, List.append_assoc]
      rfl

/-- A frame from an empty decoder emits the bytes of its text up to the first foreign character, and the status (R84). -/
theorem wordsOf_decFrame (text : List Character) {s : State} (hd : s.dec = DecUnit.empty) :
    wordsOf isDecCmd (text.map Instr.decChar ++ [.decEnd]) s =
      (decodeBytes (symStream ((beforeForeign s.cfg text).filterMap (inv s.cfg)))).map byteWord ++
        [statusWord 0x6 (textCode s.cfg text)] := by
  have hp : Pending 8 s.dec.acc.toNat s.dec.nbits.toNat [] := hd ▸ pending_empty (by decide)
  rw [wordsOf_decFrame_of_pending text (by rw [hd]; rfl) hp, List.nil_append]

/-- A frame of a text that decodes emits its bytes and `OK` (R84). -/
theorem wordsOf_decFrame_of_ok {text : List Character} {bs : List Byte} {s : State} (hd : s.dec = DecUnit.empty)
    (h : refDecode s.cfg text = .ok bs) :
    wordsOf isDecCmd (text.map Instr.decChar ++ [.decEnd]) s = bs.map byteWord ++ [statusWord 0x6 .ok] := by
  obtain ⟨hclean, hbytes⟩ := refDecode_eq_ok_iff.mp h
  rw [wordsOf_decFrame text hd, beforeForeign_of_no_foreign hclean, hbytes, textCode, hclean]
  rfl

/-- A frame of a text that does not decode emits the bytes before the first foreign character and `INVALID_SYMBOL`
(R84). -/
theorem wordsOf_decFrame_of_decodeError {text : List Character} {s : State} (hd : s.dec = DecUnit.empty)
    (h : refDecode s.cfg text = .decodeError) :
    ∃ e c bs, text[e]? = some c ∧ isForeign s.cfg c = true ∧ refDecode s.cfg (text.take e) = .ok bs ∧
      wordsOf isDecCmd (text.map Instr.decChar ++ [.decEnd]) s = bs.map byteWord ++ [statusWord 0x6 .invalidSymbol] := by
  have hany := refDecode_eq_decodeError_iff.mp h
  obtain ⟨c, hc, hforeign⟩ := exists_foreign_at_length_beforeForeign hany
  have hpre := refDecode_beforeForeign s.cfg text
  rw [← take_length_beforeForeign] at hpre
  refine ⟨_, c, _, hc, hforeign, hpre, ?_⟩
  rw [wordsOf_decFrame text hd, take_length_beforeForeign, textCode, hany]
  rfl

/-- Commands among which DEC_END is the decoder's last leave the decoder empty. -/
theorem dec_performedAll_of_decEnd_last {is js : List Instr} (h : is.filter isDecCmd = js ++ [.decEnd]) (s : State) :
    (performedAll (is.map encode) s).dec = DecUnit.empty := by
  have hview := isolated_decoder.view_performedAll_filter is (Eq.refl (decView s))
  rw [(decView_eq_iff.mp hview).2, h, List.map_append, performedAll_append]
  simp [decAfter]

/-- Settles O50: what the decoder emits among other commands is what its frame emits alone. -/
theorem decoderFrameGivesDecode : Obligations.DecoderFrameGivesDecode := by
  intro s is text hd hframe
  have hwords : wordsOf isDecCmd is s = wordsOf isDecCmd (text.map Instr.decChar ++ [.decEnd]) s := by
    rw [isolated_decoder.wordsOf_filter is rfl, hframe]
  have hread : ∀ (bs : List Byte) (code : StatusCode),
      bytesIn (bs.map byteWord ++ [statusWord 0x6 code]) = bs ∧
      (bs.map byteWord ++ [statusWord 0x6 code]).getLast? = some (statusWord 0x6 code) := fun bs code =>
    ⟨by rw [bytesIn_append, bytesIn_map_byteWord, bytesIn_statusWord, List.append_nil], List.getLast?_concat⟩
  refine ⟨⟨_, performWords_eq_performedAll _ _, dec_performedAll_of_decEnd_last hframe s⟩, fun bs hok => ?_,
    fun herr => ?_⟩
  · rw [hwords, wordsOf_decFrame_of_ok hd hok]
    exact hread bs .ok
  · obtain ⟨e, c, bs, hc, hforeign, hpre, hout⟩ := wordsOf_decFrame_of_decodeError hd herr
    obtain ⟨hpad, hinv⟩ := isForeign_iff.mp hforeign
    rw [hwords, hout]
    exact ⟨e, c, bs, hc, hpad, hinv, hpre, hread bs .invalidSymbol⟩

/-- Settles O52: the encoder's symbols are `ENCODE` of the bytes, which `DECODE` undoes. -/
theorem blockRoundTrip : Obligations.BlockRoundTrip := by
  intro s bytes he hd
  have hsyms : symsIn (wordsOf isEncCmd (bytes.map Instr.encByte ++ [.encEnd]) s) = refEncode s.cfg bytes := by
    rw [wordsOf_encFrame bytes he, symsIn_append, symsIn_map_symWord, symsIn_statusWord, List.append_nil]
  dsimp only
  rw [hsyms]
  exact wordsOf_decFrame_of_ok hd (decodeUndoesEncodeOfText s.cfg bytes)

end Sys2Proof.Machine
end

section
/-!
PROOFS. The three encoder commands in unsigned arithmetic (41_encoder.md R86-R88): which words are commands, the groups and
fields ENC_BYTE gives, and the fill and padding ENC_END gives.
-/
namespace Sys2Proof

/-- Form Z has no other word than the one whose operand is 0 (30_encoding.md R56). -/
theorem formZ_of_ne_zero {op : Opcode} {D : BitVec 16} (h : D ≠ 0) (i : Instr) : formZ op D i = .badOperand op :=
  if_neg h

/-- Form B8 reserves the high byte of the operand (30_encoding.md R56). -/
theorem formB8_of_high_ne_zero {op : Opcode} {D : BitVec 16} (h : D.extractLsb' 8 8 ≠ 0) (f : Byte → Instr) :
    formB8 op D f = .badOperand op :=
  if_neg h

theorem decodeCmd_encByte_of_high_ne_zero {D : BitVec 16} (h : D.extractLsb' 8 8 ≠ 0) :
    decodeCmd (cmdWord 0x2 D) = .badOperand 0x2 :=
  (decodeCmd_cmdWord 0x2 D).trans (formB8_of_high_ne_zero h .encByte)

/-- ENC_BYTE's words are `0x20000` to `0x200FF` (30_encoding.md R58). -/
theorem encode_encByte_eq_or : ∀ byte : Byte, encode (.encByte byte) = 0x20000 ||| byte.setWidth 20 := by decide +kernel

end Sys2Proof

namespace Sys2Proof.Machine

/-- Settles O22: the effect is the definition's, and form Z reserves the whole operand. -/
theorem encClearEmptiesTheEncoder : Obligations.EncClearEmptiesTheEncoder :=
  ⟨decodeCmd_encode .encClear, fun _ => rfl, fun D hD => (decodeCmd_cmdWord 0x1 D).trans (formZ_of_ne_zero hD _)⟩

/-- A group of the accumulator, as a number cut to 5 bits (41_encoder.md R87). -/
theorem group_eq_ofNat (acc : BitVec 12) (n : Nat) : (acc >>> n).setWidth 5 = BitVec.ofNat 5 (acc.toNat / 2 ^ n) := by
  apply BitVec.eq_of_toNat_eq
  rw [toNat_group, BitVec.toNat_ofNat]

section
variable {e : EncUnit} (byte : Byte)

/-- Fewer than 10 pending bits are one group. -/
theorem encGroups_of_lt_ten (h : e.nbits.toNat + 8 < 10) :
    (encGroups e byte).1 = [BitVec.ofNat 5 ((e.acc.toNat * 256 + byte.toNat) / 2 ^ (e.nbits.toNat + 8 - 5))] := by
  have hn : e.nbits.toNat + 8 = (e.nbits.toNat + 3) + 5 := rfl
  rw [encGroups, hn, takeGroups_add_five, takeGroups_of_lt (by omega), group_eq_ofNat, toNat_shiftInByte,
    Nat.add_sub_cancel]

/-- 10 to 12 pending bits are two groups. -/
theorem encGroups_of_ten_le (hwf : e.nbits.toNat ≤ 4) (h : ¬ e.nbits.toNat + 8 < 10) :
    (encGroups e byte).1 = [BitVec.ofNat 5 ((e.acc.toNat * 256 + byte.toNat) / 2 ^ (e.nbits.toNat + 8 - 5)),
      BitVec.ofNat 5 ((e.acc.toNat * 256 + byte.toNat) / 2 ^ (e.nbits.toNat + 8 - 10) % 32)] := by
  obtain ⟨m, hm⟩ : ∃ m, e.nbits.toNat + 8 = m + 5 + 5 := ⟨e.nbits.toNat - 2, by omega⟩
  have hmod : ∀ x, BitVec.ofNat 5 (x % 32) = BitVec.ofNat 5 x := fun x => BitVec.eq_of_toNat_eq (Nat.mod_mod x 32)
  rw [encGroups, hm, takeGroups_add_five, takeGroups_add_five, takeGroups_of_lt (by omega), group_eq_ofNat,
    group_eq_ofNat, toNat_shiftInByte, hmod, Nat.add_sub_cancel, show m + 5 + 5 - 10 = m by omega]

end

/-- The fields ENC_BYTE leaves, as numbers (41_encoder.md R87). -/
theorem encAfterByte_eq (e : EncUnit) (byte : Byte) : encAfterByte e byte =
    { acc := BitVec.ofNat 4 ((e.acc.toNat * 256 + byte.toNat) % 2 ^ ((e.nbits.toNat + 8) % 5))
      nbits := BitVec.ofNat 3 ((e.nbits.toNat + 8) % 5)
      nsym := e.nsym + BitVec.ofNat 3 ((e.nbits.toNat + 8) / 5) } := by
  rw [← acc_encAfterByte, ← encGroups_left e byte, ← encGroups_length e byte, BitVec.ofNat_toNat, BitVec.setWidth_eq]
  rfl

/-- A performed ENC_BYTE, from what it emits. -/
theorem exec_encByte_eq (byte : Byte) (s : State) : exec (.encByte byte) s = .next { s with
    enc := encAfterByte s.enc byte
    outq := s.outq ++ (encGroups s.enc byte).1.map fun g => symWord (symbolOf s.cfg g) } := rfl

/-- Settles O23: the loop takes one group or two, by the count of pending bits. -/
theorem encByteEmitsEveryCompleteGroup : Obligations.EncByteEmitsEveryCompleteGroup := by
  refine ⟨fun byte => encode_encByte_eq_or byte ▸ decodeCmd_encode _,
    fun D hD => decodeCmd_encByte_of_high_ne_zero hD, fun s byte hwf => ?_⟩
  obtain ⟨hnbits, -⟩ := encWf_iff.mp hwf
  dsimp only
  rw [exec_encByte_eq, encAfterByte_eq]
  split
  case isTrue h =>
    rw [encGroups_of_lt_ten byte h, show (s.enc.nbits.toNat + 8) % 5 = s.enc.nbits.toNat + 8 - 5 by omega,
      show (s.enc.nbits.toNat + 8) / 5 = 1 by omega]
    rfl
  case isFalse h =>
    rw [encGroups_of_ten_le byte hnbits h, show (s.enc.nbits.toNat + 8) % 5 = s.enc.nbits.toNat + 8 - 10 by omega,
      show (s.enc.nbits.toNat + 8) / 5 = 2 by omega]
    rfl

/-- The fill symbol of the pending bits, if any, as a number cut to 5 bits (41_encoder.md R88). -/
theorem fillWords_eq_ite (cfg : Config) (e : EncUnit) : fillWords cfg e =
    if e.nbits.toNat = 0 then []
    else [symWord (symbolOf cfg (BitVec.ofNat 5 (e.acc.toNat * 2 ^ (5 - e.nbits.toNat))))] := by
  have hfill : fillGroup e.acc e.nbits = BitVec.ofNat 5 (e.acc.toNat * 2 ^ (5 - e.nbits.toNat)) := by
    apply BitVec.eq_of_toNat_eq
    rw [toNat_fillGroup, BitVec.toNat_ofNat]
  simp only [fillWords, hfill, Nat.pos_iff_ne_zero, ite_not]

/-- ENC_END counts the fill symbol in (41_encoder.md R88). -/
theorem toNat_endNsym (cfg : Config) (e : EncUnit) :
    (endNsym e).toNat = (e.nsym.toNat + (fillWords cfg e).length) % 8 := by
  unfold endNsym fillWords
  split
  case isTrue => rw [BitVec.toNat_add]; rfl
  case isFalse => exact (Nat.mod_eq_of_lt e.nsym.isLt).symm

/-- Settles O24: the padding is counted from the symbols with the fill symbol among them. -/
theorem encEndFillsPadsAndReports : Obligations.EncEndFillsPadsAndReports := by
  refine ⟨decodeCmd_encode .encEnd, fun D hD => (decodeCmd_cmdWord 0x3 D).trans (formZ_of_ne_zero hD _),
    fun s _ => ?_⟩
  dsimp only
  rw [← fillWords_eq_ite, ← toNat_endNsym]
  have hpad := padWords_eq s.cfg (endNsym s.enc)
  rw [padCount, Nat.mod_eq_of_lt (endNsym s.enc).isLt] at hpad
  rw [← hpad]
  rfl

end Sys2Proof.Machine
end

section
/-!
PROOFS. The pace of an encoder frame (41_encoder.md R89): after `k` bytes the counts are those of `8k` bits cut into groups
of 5. They depend on `k mod 5` only, so five pairs occur, and each says how many words ENC_END emits.
-/
namespace Sys2Proof.Machine

/-- The symbol count modulo 8 goes by the bytes modulo 5: every 5 bytes are 8 symbols (41_encoder.md R89). -/
theorem symCount_mod_eight (k : Nat) : 8 * k / 5 % 8 = 8 * (k % 5) / 5 := by
  have hfull : 8 * k / 5 = 8 * (k / 5) + 8 * (k % 5) / 5 := by omega
  omega

/-- The encoder has the counts of a frame of `k` bytes: `8k mod 5` bits pending, `floor(8k / 5)` symbols modulo 8. -/
structure PacedAt (k : Nat) (e : EncUnit) : Prop where
  nbits_eq : e.nbits.toNat = 8 * k % 5
  nsym_eq : e.nsym.toNat = 8 * k / 5 % 8

theorem pacedAt_empty : PacedAt 0 EncUnit.empty := ⟨rfl, rfl⟩

/-- Five bytes on, the counts are the same. -/
theorem PacedAt.mod_five {k : Nat} {e : EncUnit} (hk : PacedAt k e) : PacedAt (k % 5) e where
  nbits_eq := by rw [hk.nbits_eq, Nat.mul_mod_mod]
  nsym_eq := by rw [hk.nsym_eq, symCount_mod_eight, symCount_mod_eight, Nat.mod_mod]

/-- The invariant of R89 says that the counts are those of some number of bytes. -/
theorem encPaced_iff {e : EncUnit} : EncPaced e = true ↔ ∃ k, PacedAt k e := by
  simp only [EncPaced, Bool.or_eq_true, Bool.and_eq_true, beq_iff_eq, ← BitVec.toNat_inj, BitVec.reduceToNat]
  constructor
  · rintro ((((⟨hb, hs⟩ | ⟨hb, hs⟩) | ⟨hb, hs⟩) | ⟨hb, hs⟩) | ⟨hb, hs⟩)
    · exact ⟨0, hb, hs⟩
    · exact ⟨1, hb, hs⟩
    · exact ⟨2, hb, hs⟩
    · exact ⟨3, hb, hs⟩
    · exact ⟨4, hb, hs⟩
  · rintro ⟨k, hk⟩
    obtain ⟨hb, hs⟩ := hk.mod_five
    have hr := Nat.mod_lt k (show 5 > 0 by decide)
    generalize k % 5 = r at hb hs hr
    rw [hb, hs]
    interval_cases r <;> decide

theorem length_fillWords (cfg : Config) (e : EncUnit) :
    (fillWords cfg e).length = if e.nbits.toNat = 0 then 0 else 1 := by
  rw [fillWords_eq_ite]
  split <;> rfl

section
variable {k : Nat} {e : EncUnit} (hk : PacedAt k e)
include hk

theorem PacedAt.encAfterByte (byte : Byte) : PacedAt (k + 1) (encAfterByte e byte) where
  nbits_eq := by rw [nbits_encAfterByte, hk.nbits_eq]; omega
  nsym_eq := by
    have hcount : 8 * k / 5 + (8 * k % 5 + 8) / 5 = 8 * (k + 1) / 5 := by omega
    rw [nsym_encAfterByte, hk.nbits_eq, hk.nsym_eq, Nat.mod_add_mod, hcount]

/-- ENC_END counts one symbol more when bits are pending: `ceil(8k / 5)` (41_encoder.md R88). -/
theorem PacedAt.toNat_endNsym : (endNsym e).toNat = groupCount (8 * k) % 8 := by
  have hcount : 8 * k / 5 + (if 8 * k % 5 = 0 then 0 else 1) = groupCount (8 * k) := by
    unfold groupCount
    split <;> omega
  rw [Machine.toNat_endNsym Config.default, length_fillWords, hk.nbits_eq, hk.nsym_eq, Nat.mod_add_mod, hcount]

end

/-- Every command keeps the encoder in pace (41_encoder.md R89): a byte counts one on, a CLEAR or an END starts afresh. -/
theorem encPaced_encAfter {e : EncUnit} (h : EncPaced e = true) (d : Decoded) : EncPaced (encAfter d e) = true := by
  obtain ⟨k, hk⟩ := encPaced_iff.mp h
  unfold encAfter
  split
  · rfl
  · exact encPaced_iff.mpr ⟨k + 1, hk.encAfterByte _⟩
  · rfl
  · exact h

theorem symWord_inj {c c' : Character} : symWord c = symWord c' ↔ c = c' :=
  ⟨fun h => by simpa using congrArg valueOf h, congrArg symWord⟩

theorem statusWord_ne_symWord (op : Opcode) (code : StatusCode) (c : Character) : statusWord op code ≠ symWord c := by
  intro h
  have htag := congrArg tagOf h
  rw [tagOf_statusWord, tagOf_symWord] at htag
  cases htag

/-- Among ENC_END's words those equal to the padding symbol's are the padding: the fill symbol is a symbol of the table,
and the status has another tag. -/
theorem filter_pad_emits_encEnd (cfg : Config) (e : EncUnit) (u : DecUnit) :
    (emits cfg e u (.cmd .encEnd)).filter (fun w => w == symWord cfg.pad) = padWords cfg (endNsym e) := by
  have hfill : (fillWords cfg e).filter (fun w => w == symWord cfg.pad) = [] := by
    rw [fillWords_eq_ite]
    split
    · rfl
    · exact List.filter_eq_nil_iff.mpr (by simp [symWord_inj, symbolOf_ne_pad])
  have hstatus : [statusWord 0x3 .ok].filter (fun w => w == symWord cfg.pad) = [] := by
    exact List.filter_eq_nil_iff.mpr (by simp [statusWord_ne_symWord])
  rw [emits, List.filter_append, List.filter_append, hfill, hstatus, padWords_eq]
  simp

/-- How many words ENC_END emits after `k` bytes, and how many of them are padding (41_encoder.md R89). -/
theorem PacedAt.length_emits_encEnd {k : Nat} {e : EncUnit} (hk : PacedAt k e) (cfg : Config) (u : DecUnit) :
    (k % 5, (emits cfg e u (.cmd .encEnd)).length,
      ((emits cfg e u (.cmd .encEnd)).filter fun w => w == symWord cfg.pad).length) ∈
      [(0, 1, 0), (1, 8, 6), (2, 6, 4), (3, 5, 3), (4, 3, 1)] := by
  have hpad : (padWords cfg (endNsym e)).length = padCount (groupCount (8 * (k % 5))) := by
    rw [length_padWords, hk.toNat_endNsym, groupCount_eight_mul, padCount, Nat.mul_add_mod]
  have hfill : (fillWords cfg e).length = if k % 5 = 0 then 0 else 1 := by
    rw [length_fillWords, hk.nbits_eq]
    split <;> split <;> omega
  rw [filter_pad_emits_encEnd, emits, List.length_append, List.length_append, hpad, hfill]
  have hr := Nat.mod_lt k (show 5 > 0 by decide)
  generalize k % 5 = r at hr ⊢
  interval_cases r <;> decide

/-- Settles O40: of the turns only the block's performing a command and a reset write the encoder. -/
theorem encoderKeepsItsPace : Obligations.EncoderKeepsItsPace := by
  refine ⟨fun s t _ hpaced h => ?_, fun s _ hpaced => ?_⟩
  · obtain ⟨-, hblock⟩ | ⟨C, -, rfl⟩ | ⟨-, hpop⟩ | ⟨-, rfl⟩ := step_cases h
    · obtain ⟨-, rfl⟩ | ⟨C, rest, -, -, -, -, rfl⟩ | ⟨C, rest, -, -, -, -, rfl⟩ := blockTurn_cases hblock
      · exact hpaced
      · exact hpaced
      · exact encPaced_encAfter hpaced _
    · exact hpaced
    · obtain ⟨-, ⟨-, rfl⟩ | ⟨w, ws, -, -, rfl⟩⟩ := hostPop_cases hpop <;> exact hpaced
    · rfl
  · obtain ⟨k, hk⟩ := encPaced_iff.mp hpaced
    have htable := hk.length_emits_encEnd s.cfg s.dec
    rw [emittedBy_encode]
    simp only [List.mem_cons, List.not_mem_nil, or_false, Prod.mk.injEq] at htable
    omega

/-- A frame's bytes count on from where the encoder was. -/
theorem PacedAt.enc_performedAll {k : Nat} {s : State} (hk : PacedAt k s.enc) (bytes : List Byte) :
    PacedAt (k + bytes.length) (performedAll (bytes.map fun b => encode (.encByte b)) s).enc := by
  induction bytes generalizing k s with
  | nil => exact hk
  | cons b bytes ih =>
    have hnext : PacedAt (k + 1) (performed (.cmd (.encByte b)) s).enc := hk.encAfterByte b
    rw [List.map_cons, performedAll_cons, decodeCmd_encode, List.length_cons, Nat.add_comm bytes.length,
      ← Nat.add_assoc]
    exact ih hnext

theorem performedAll_cfg (Cs : List CmdWord) (s : State) : (performedAll Cs s).cfg = s.cfg := by
  induction Cs generalizing s with
  | nil => rfl
  | cons C Cs ih => exact ih _

/-- Settles O48: the counts of `k` bytes, and ENC_END's words at them. -/
theorem encoderStateAfterBytes : Obligations.EncoderStateAfterBytes := by
  intro s bytes he
  have hstart : PacedAt 0 s.enc := he ▸ pacedAt_empty
  have hk := hstart.enc_performedAll bytes
  have hcfg := performedAll_cfg (bytes.map fun b => encode (.encByte b)) s
  refine ⟨_, performWords_eq_performedAll _ s, ?_⟩
  generalize performedAll (bytes.map fun b => encode (.encByte b)) s = t at hk hcfg ⊢
  rw [Nat.zero_add] at hk
  have hb := hk.mod_five.nbits_eq
  have hs := hk.nsym_eq.trans (symCount_mod_eight _)
  have htable := hk.length_emits_encEnd t.cfg t.dec
  refine ⟨hk.nbits_eq, hk.nsym_eq, hs, ?_⟩
  rw [emittedBy_encode, hb, hs, ← hcfg]
  generalize bytes.length % 5 = r at htable ⊢
  simp only [List.mem_cons, List.not_mem_nil, or_false, Prod.mk.injEq] at htable
  obtain ⟨rfl, hl, hp⟩ | ⟨rfl, hl, hp⟩ | ⟨rfl, hl, hp⟩ | ⟨rfl, hl, hp⟩ | ⟨rfl, hl, hp⟩ := htable <;> simp [hl, hp]

end Sys2Proof.Machine
end

section
/-!
PROOFS. How the host reads an encoder frame from the trace (70_reset_and_hazards.md R142), entry by entry, and a frame with a
rejected byte (41_encoder.md R92): the rejected word leaves the units, so the accepted bytes are a frame of their own.
-/
namespace Sys2Proof.Machine

theorem traceOf_append (Cs Ds : List CmdWord) (s : State) :
    traceOf (Cs ++ Ds) s = traceOf Cs s ++ traceOf Ds (performedAll Cs s) := by
  induction Cs generalizing s with
  | nil => rfl
  | cons C Cs ih => rw [List.cons_append, traceOf_cons, ih, traceOf_cons, performedAll_cons, List.cons_append]

section
variable (r : EncReader) (es : List TraceEntry) (s : State)

/-- The words of an accepted ENC_BYTE join the open frame: none of them is the status of a rejected one. -/
theorem encFrames_encByte (b : Byte) :
    encFrames r (.cmd (encode (.encByte b)) (emits s.cfg s.enc s.dec (.cmd (.encByte b))) :: es) =
      encFrames { r with syms := r.syms ++ symsIn (emits s.cfg s.enc s.dec (.cmd (.encByte b))) } es := by
  have hop : (opOf (encode (.encByte b))).toNat = 2 := congrArg BitVec.toNat (opOf_cmdWord 0x2 _)
  have hout : emits s.cfg s.enc s.dec (.cmd (.encByte b)) ≠ [statusWord 0x2 .badOperand] := by
    intro h
    have hmem : statusWord 0x2 .badOperand ∈ emits s.cfg s.enc s.dec (.cmd (.encByte b)) := h ▸ List.mem_singleton_self _
    obtain ⟨g, -, hg⟩ := List.mem_map.mp hmem
    exact statusWord_ne_symWord _ _ _ hg.symm
  simp only [encFrames, hop, if_neg hout]

/-- A rejected ENC_BYTE marks the open frame (41_encoder.md R92). -/
theorem encFrames_rejected_encByte (D : BitVec 16) :
    encFrames r (.cmd (cmdWord 0x2 D) [statusWord 0x2 .badOperand] :: es) = encFrames { r with lost := true } es := by
  have hop : (opOf (cmdWord 0x2 D)).toNat = 2 := congrArg BitVec.toNat (opOf_cmdWord 0x2 D)
  simp only [encFrames, hop, if_true]

/-- An accepted ENC_END ends the open frame with its result. -/
theorem encFrames_encEnd :
    encFrames r (.cmd (encode .encEnd) (emits s.cfg s.enc s.dec (.cmd .encEnd)) :: es) =
      (if r.lost then .failed else .text (r.syms ++ symsIn (emits s.cfg s.enc s.dec (.cmd .encEnd)))) ::
        encFrames .fresh es := by
  have hop : (opOf (encode .encEnd)).toNat = 3 := congrArg BitVec.toNat (opOf_cmdWord 0x3 0)
  have hout : (emits s.cfg s.enc s.dec (.cmd .encEnd)).getLast? = some (statusWord 0x3 .ok) := List.getLast?_concat
  simp only [encFrames, hop, if_pos hout]

/-- The words of a frame's accepted bytes join it one after another. -/
theorem encFrames_encBytes (bytes : List Byte) :
    encFrames r (traceOf (bytes.map fun b => encode (.encByte b)) s ++ es) =
      encFrames { r with syms := r.syms ++ symsIn (wordsInOrder (bytes.map fun b => encode (.encByte b)) s) } es := by
  induction bytes generalizing r s with
  | nil => simp [traceOf, symsIn]
  | cons b bytes ih =>
    rw [List.map_cons, traceOf_cons, decodeCmd_encode, List.cons_append, encFrames_encByte, ih, wordsInOrder_cons,
      decodeCmd_encode, symsIn_append, List.append_assoc]

end

/-- Of the commands of one unit alone, all words are the unit's. -/
theorem wordsInOrder_map_encode {keep : Instr → Bool} {is : List Instr} (h : ∀ i ∈ is, keep i = true) (s : State) :
    wordsInOrder (is.map encode) s = wordsOf keep is s := by
  induction is generalizing s with
  | nil => rfl
  | cons i is ih =>
    obtain ⟨hi, his⟩ := List.forall_mem_cons.mp h
    rw [List.map_cons, wordsInOrder_cons, decodeCmd_encode, wordsOf_cons, if_pos hi, ih his]

/-- A frame of the encoder's commands alone emits `ENCODE` of its bytes and the status (R83). -/
theorem wordsInOrder_encFrame (bytes : List Byte) {s : State} (he : s.enc = EncUnit.empty) :
    wordsInOrder (bytes.map (fun b => encode (.encByte b)) ++ [encode .encEnd]) s =
      (refEncode s.cfg bytes).map symWord ++ [statusWord 0x3 .ok] := by
  have hkeep : ∀ i ∈ bytes.map Instr.encByte ++ [.encEnd], isEncCmd i = true := by
    intro i hi
    obtain hbyte | hend := List.mem_append.mp hi
    · obtain ⟨b, -, rfl⟩ := List.mem_map.mp hbyte
      rfl
    · rw [List.mem_singleton.mp hend]
      rfl
  rw [← wordsOf_encFrame bytes he, ← wordsInOrder_map_encode hkeep s, List.map_append, List.map_map]
  rfl

/-- A rejected word leaves the table and the units as they are (60_exceptions.md R116). -/
theorem cmdView_performed_badOperand (op : Opcode) (s : State) : cmdView (performed (.badOperand op) s) = cmdView s := rfl

/-- A rejected word among others emits its status and has no part in what they emit. -/
theorem wordsInOrder_rejected {C : CmdWord} {op : Opcode} (hC : decodeCmd C = .badOperand op) (Cs Ds : List CmdWord)
    (s : State) : wordsInOrder (Cs ++ C :: Ds) s =
      wordsInOrder Cs s ++ statusWord op .badOperand :: wordsInOrder Ds (performedAll Cs s) := by
  rw [wordsInOrder_append, wordsInOrder_cons, hC,
    wordsInOrder_eq_of_cmdView_eq Ds (cmdView_performed_badOperand op (performedAll Cs s))]
  rfl

/-- The host reads a frame as failed when one of its ENC_BYTEs was rejected (41_encoder.md R92). -/
theorem encFrames_rejected_frame {D : BitVec 16} (hbad : decodeCmd (cmdWord 0x2 D) = .badOperand 0x2)
    (r : EncReader) (bytes₁ bytes₂ : List Byte) (s : State) :
    encFrames r (traceOf (bytes₁.map (fun b => encode (.encByte b)) ++
      cmdWord 0x2 D :: (bytes₂.map (fun b => encode (.encByte b)) ++ [encode .encEnd])) s) = [.failed] := by
  rw [traceOf_append, encFrames_encBytes, traceOf_cons, hbad, emits, encFrames_rejected_encByte, traceOf_append,
    encFrames_encBytes, traceOf_cons, decodeCmd_encode, encFrames_encEnd]
  rfl

theorem getLast?_wordsInOrder_encEnd (Cs : List CmdWord) (s : State) :
    (wordsInOrder (Cs ++ [encode .encEnd]) s).getLast? = some (statusWord 0x3 .ok) := by
  rw [wordsInOrder_append, wordsInOrder_cons, decodeCmd_encode, wordsInOrder_nil, List.append_nil, emits,
    ← List.append_assoc, List.getLast?_concat]

/-- Settles O59: the accepted bytes and ENC_END are a frame of their own, with the rejected word's status among its words. -/
theorem rejectedByteIsLostFromItsFrame : Obligations.RejectedByteIsLostFromItsFrame := by
  intro s bytes₁ bytes₂ D he hD Cs
  have hbad : decodeCmd (cmdWord 0x2 D) = .badOperand 0x2 :=
    decodeCmd_encByte_of_high_ne_zero fun h => absurd (high_zero_iff_lt.mp h) (by omega)
  have hCs : Cs = bytes₁.map (fun b => encode (.encByte b)) ++
      cmdWord 0x2 D :: (bytes₂.map (fun b => encode (.encByte b)) ++ [encode .encEnd]) := by simp [Cs]
  have hframe := wordsInOrder_encFrame (bytes₁ ++ bytes₂) he
  rw [List.map_append, List.append_assoc, wordsInOrder_append] at hframe
  have hwords := hCs ▸ wordsInOrder_rejected hbad _ _ s
  refine ⟨?syms, getLast?_wordsInOrder_encEnd _ s, ?status, hCs ▸ encFrames_rejected_frame hbad _ _ _ s⟩
  case syms =>
    calc symsIn (wordsInOrder Cs s)
        = symsIn ((refEncode s.cfg (bytes₁ ++ bytes₂)).map symWord ++ [statusWord 0x3 .ok]) := by
          rw [hwords, ← hframe, ← List.singleton_append, symsIn_append, symsIn_append, symsIn_append,
            symsIn_statusWord, List.nil_append]
      _ = refEncode s.cfg (bytes₁ ++ bytes₂) := by
          rw [symsIn_append, symsIn_map_symWord, symsIn_statusWord, List.append_nil]
  case status =>
    change _ ∈ wordsInOrder Cs s
    rw [hwords]
    exact List.mem_append_right _ List.mem_cons_self

end Sys2Proof.Machine
end

section
/-!
PROOFS. The three decoder commands in unsigned arithmetic (42_decoder.md R94-R96) and the padding strip (R97): which
words are commands, what a character does by its class, and the byte and fields a symbol gives.
-/
namespace Sys2Proof

/-- A word as its two fields put at their places (30_encoding.md R55). -/
theorem cmdWord_eq_or (op : Opcode) (D : BitVec 16) : cmdWord op D = op.setWidth 20 <<< 16 ||| D.setWidth 20 :=
  (BitVec.append_def op D).trans (by rw [BitVec.shiftLeftZeroExtend_eq, BitVec.setWidth'_eq])

/-- DEC_CHAR's words are `0x50000` to `0x5FFFF` (30_encoding.md R58). -/
theorem encode_decChar_eq_or (ch : Character) : encode (.decChar ch) = 0x50000 ||| ch.setWidth 20 :=
  cmdWord_eq_or 0x5 ch

/-- STRIP_CHAR's words are `0x90000` to `0x9FFFF` (30_encoding.md R58). -/
theorem encode_stripChar_eq_or (ch : Character) : encode (.stripChar ch) = 0x90000 ||| ch.setWidth 20 :=
  cmdWord_eq_or 0x9 ch

end Sys2Proof

namespace Sys2Proof.Machine

/-- Settles O25: the effect is the definition's, and form Z reserves the whole operand. -/
theorem decClearEmptiesTheDecoder : Obligations.DecClearEmptiesTheDecoder :=
  ⟨decodeCmd_encode .decClear, fun _ => rfl, fun D hD => (decodeCmd_cmdWord 0x4 D).trans (formZ_of_ne_zero hD _)⟩

/-- Settles O27: the report reads `dec_err` alone, and form Z reserves the whole operand. -/
theorem decEndReportsTheFrame : Obligations.DecEndReportsTheFrame :=
  ⟨decodeCmd_encode .decEnd, fun D hD => (decodeCmd_cmdWord 0x6 D).trans (formZ_of_ne_zero hD _), fun _ => rfl⟩

section
variable {s : State} {c : Character}

/-- A character without output that leaves the decoder leaves the whole state. -/
theorem performed_decChar_eq_self (h : emits s.cfg s.enc s.dec (.cmd (.decChar c)) = [] ∧
    decAfter s.cfg (.cmd (.decChar c)) s.dec = s.dec) : performed (.cmd (.decChar c)) s = s := by
  obtain ⟨hout, hdec⟩ := h
  rw [performed, hout, hdec, List.append_nil]
  rfl

/-- A failed frame ignores its characters (42_decoder.md R95). -/
theorem performed_decChar_of_err (h : s.dec.err = true) : performed (.cmd (.decChar c)) s = s :=
  performed_decChar_eq_self (decChar_of_err h s.enc)

/-- Padding is skipped, in a failed frame too (42_decoder.md R95, R99). -/
theorem performed_decChar_pad (s : State) : performed (.cmd (.decChar s.cfg.pad)) s = s :=
  performed_decChar_eq_self (decChar_of_padding (classify_pad s.cfg) s.enc)

/-- A foreign character only sets `dec_err` (42_decoder.md R95). -/
theorem performed_decChar_of_invalid (h : s.dec.err = false) (hk : classify s.cfg c = .invalid) :
    performed (.cmd (.decChar c)) s = { s with dec := markInvalid s.dec } := by
  simp [performed, encAfter, decAfter, emits, h, hk]

/-- A symbol's bits join the stream, and the byte they complete is emitted (42_decoder.md R95). -/
theorem performed_decChar_of_symbol {v : SymVal} (h : s.dec.err = false) (hk : classify s.cfg c = .symbol v) :
    performed (.cmd (.decChar c)) s =
      { s with dec := decAfterSym s.dec v, outq := s.outq ++ (decBytes s.dec v).map byteWord } := by
  obtain ⟨hout, hdec⟩ := decChar_of_symbol h hk s.enc
  rw [performed, hout, hdec]
  rfl

end

/-- The eight oldest of `n` pending bits, as a number cut to 8 bits (42_decoder.md R95). -/
theorem oldestByte_eq_ofNat (acc : BitVec 12) (n : Nat) :
    oldestByte acc n = BitVec.ofNat 8 (acc.toNat / 2 ^ (n - 8)) := by
  apply BitVec.eq_of_toNat_eq
  rw [toNat_oldestByte, BitVec.toNat_ofNat]

/-- The bytes a symbol completes, in numbers (42_decoder.md R95). -/
theorem decBytes_eq_ite (u : DecUnit) (v : SymVal) : decBytes u v =
    if 8 ≤ u.nbits.toNat + 5 then
      [BitVec.ofNat 8 ((u.acc.toNat * 32 + v.toNat) / 2 ^ (u.nbits.toNat + 5 - 8))]
    else [] := by
  rw [decBytes, oldestByte_eq_ofNat, toNat_shiftInSym]

/-- The fields a symbol leaves, in numbers (42_decoder.md R95). -/
theorem decAfterSym_eq (u : DecUnit) (v : SymVal) : decAfterSym u v =
    { acc := BitVec.ofNat 7 ((u.acc.toNat * 32 + v.toNat) % 2 ^ ((u.nbits.toNat + 5) % 8))
      nbits := BitVec.ofNat 3 ((u.nbits.toNat + 5) % 8)
      err := u.err } := by
  rw [← acc_decAfterSym, ← decLeft_eq u, BitVec.ofNat_toNat, BitVec.setWidth_eq]
  rfl

/-- An accumulator that holds its pending bits only has room for a symbol below the next power (10_state.md R30). -/
theorem shiftedAcc_lt {u : DecUnit} (h : decWf u = true) (v : SymVal) :
    u.acc.toNat * 32 + v.toNat < 2 ^ (u.nbits.toNat + 5) := by
  obtain ⟨-, hacc⟩ := decWf_iff.mp h
  have hv := v.isLt
  rw [Nat.pow_add]
  omega

/-- The codes R95 lists as outside the default alphabet. -/
theorem foreign_default {c : Character}
    (h : (0x61 ≤ c.toNat ∧ c.toNat ≤ 0x7A) ∨ c.toNat ∈ [0x30, 0x31, 0x38, 0x39, 0x20, 0x0A] ∨ 0x7F < c.toNat) :
    c ≠ Config.default.pad ∧ inv Config.default c = none := by
  simp only [List.mem_cons, List.not_mem_nil, or_false] at h
  refine ⟨fun hc => ?_, not_ne_iff.mp fun hc => ?_⟩
  · rw [eq_default_pad_iff] at hc
    omega
  · rw [inv_default_ne_none_iff] at hc
    omega

/-- Settles O26: one clause per class of character; below 8 pending bits the accumulator loses none. -/
theorem decCharSkipsMarksOrEmits : Obligations.DecCharSkipsMarksOrEmits := by
  refine ⟨fun ch => encode_decChar_eq_or ch ▸ decodeCmd_encode _, fun s ch => ⟨?failed, ?padding, ?foreign, ?symbol⟩,
    fun _ => foreign_default⟩
  case failed =>
    intro herr
    rw [exec_eq_performed, performed_decChar_of_err herr]
  case padding =>
    rintro - rfl
    rw [exec_eq_performed, performed_decChar_pad]
  case foreign =>
    intro herr hpad hinv
    rw [exec_eq_performed, performed_decChar_of_invalid herr (classify_of_inv_none hpad hinv)]
    rfl
  case symbol =>
    intro v herr hwf hinv
    have hlt := shiftedAcc_lt hwf v
    have hnbits := s.dec.nbits.isLt
    dsimp only
    rw [exec_eq_performed, performed_decChar_of_symbol herr (classify_of_inv_some hinv), decBytes_eq_ite,
      decAfterSym_eq, herr]
    split
    case isTrue hbyte => rw [show (s.dec.nbits.toNat + 5) % 8 = s.dec.nbits.toNat + 5 - 8 by omega]; rfl
    case isFalse hnone =>
      rw [Nat.mod_eq_of_lt (Nat.lt_of_not_le hnone), Nat.mod_eq_of_lt hlt, List.map_nil, List.append_nil]

/-- STRIP_CHAR appends its character's word, or nothing for padding, in any state of the units (42_decoder.md R97). -/
theorem performed_stripChar (c : Character) (s : State) :
    performed (.cmd (.stripChar c)) s = emitAll (if c = s.cfg.pad then [] else [symWord c]) s :=
  performed_of_no_unit rfl rfl s

/-- STRIP of a text emits the text without its padding (30_encoding.md R71, 42_decoder.md R97). -/
theorem performedAll_stripChars (text : List Character) (s : State) :
    performedAll (text.map fun c => encode (.stripChar c)) s = emitAll ((stripPad s.cfg text).map symWord) s := by
  induction text generalizing s with
  | nil => simp [stripPad, emitAll]
  | cons c text ih =>
    rw [List.map_cons, performedAll_cons, decodeCmd_encode, performed_stripChar, ih, emitAll_cfg]
    by_cases hc : c = s.cfg.pad <;> simp [hc, stripPad, emitAll]

/-- Settles O28: one character by the definition, a text by induction. -/
theorem stripCharDropsOnlyPadding : Obligations.StripCharDropsOnlyPadding := by
  refine ⟨fun ch => encode_stripChar_eq_or ch ▸ decodeCmd_encode _, fun s ch => ?_, fun s text => ?_⟩
  · rw [exec_eq_performed, performed_stripChar]
    split
    case isTrue => rw [emitAll, List.append_nil]
    case isFalse => rfl
  · rw [performWords_eq_performedAll, performedAll_stripChars]
    rfl

end Sys2Proof.Machine
end

section
/-!
PROOFS. The characters of a decoder frame one after another (42_decoder.md R98, R99, R101): padding and a failed frame's
characters leave the state. Symbols keep count of the bits: those pending and 8 for each emitted byte grow by 5 each.
-/
namespace Sys2Proof.Machine

theorem performedAll_decChars_of_err (text : List Character) {s : State} (h : s.dec.err = true) :
    performedAll (text.map fun c => encode (.decChar c)) s = s := by
  induction text with
  | nil => rfl
  | cons c text ih => rw [List.map_cons, performedAll_cons, decodeCmd_encode, performed_decChar_of_err h, ih]

/-- Settles O57: the characters leave the state, and DEC_END reports the error it finds. -/
theorem failedFrameIgnoresTheRest : Obligations.FailedFrameIgnoresTheRest := by
  intro s text h
  have hrest := performedAll_decChars_of_err text h
  refine ⟨by rw [performWords_eq_performedAll, hrest], ?_⟩
  rw [performWords_eq_performedAll, performedAll_append, hrest, performedAll_cons, decodeCmd_encode, performedAll_nil,
    performed, emits, endCode, h]
  rfl

theorem performedAll_decChars_stripPad (text : List Character) (s : State) :
    performedAll ((stripPad s.cfg text).map fun c => encode (.decChar c)) s =
      performedAll (text.map fun c => encode (.decChar c)) s := by
  induction text generalizing s with
  | nil => rfl
  | cons c text ih =>
    rw [List.map_cons, performedAll_cons, decodeCmd_encode]
    by_cases hc : c = s.cfg.pad
    · rw [hc, performed_decChar_pad, ← ih, stripPad, List.filter_cons_of_neg (by simp), stripPad]
    · rw [← ih, performed_cfg, stripPad, List.filter_cons_of_pos (by simpa using hc), List.map_cons, performedAll_cons,
        decodeCmd_encode, stripPad]

/-- Settles O56: padding leaves the state, so each text leaves what it leaves without its padding. -/
theorem paddingHasNoEffectAnywhere : Obligations.PaddingHasNoEffectAnywhere := by
  refine ⟨fun s => by rw [exec_eq_performed, performed_decChar_pad], fun s text => ?_⟩
  rw [performWords_eq_performedAll, performWords_eq_performedAll, performedAll_decChars_stripPad]

theorem length_decBytes (u : DecUnit) (v : SymVal) : (decBytes u v).length = (u.nbits.toNat + 5) / 8 := by
  have hnbits := u.nbits.isLt
  unfold decBytes
  split
  case isTrue => rw [List.length_singleton]; omega
  case isFalse => rw [List.length_nil]; omega

/-- Symbols lose no bit: each adds 5 to the pending bits and the emitted bytes together (42_decoder.md R98). -/
theorem bitCount_of_decChars (syms : List Character) {s t : State} (herr : s.dec.err = false)
    (hsyms : ∀ c ∈ syms, inv s.cfg c ≠ none) (ht : performedAll (syms.map fun c => encode (.decChar c)) s = t) :
    t.dec.err = false ∧
      t.dec.nbits.toNat + 8 * t.outq.length = s.dec.nbits.toNat + 8 * s.outq.length + 5 * syms.length := by
  induction syms generalizing s with
  | nil =>
    subst ht
    exact ⟨herr, rfl⟩
  | cons c syms ih =>
    obtain ⟨hc, hrest⟩ := List.forall_mem_cons.mp hsyms
    obtain ⟨v, hv⟩ := Option.ne_none_iff_exists'.mp hc
    obtain ⟨hout, hdec⟩ := decChar_of_symbol herr (classify_of_inv_some hv) s.enc
    rw [List.map_cons, performedAll_cons, decodeCmd_encode] at ht
    obtain ⟨hterr, hcount⟩ := ih (s := performed (.cmd (.decChar c)) s)
      (by rw [performed_dec, hdec, err_decAfterSym, herr]) hrest ht
    refine ⟨hterr, hcount.trans ?_⟩
    rw [performed_dec, hdec, nbits_decAfterSym, performed_outq, hout, List.length_append, List.length_map,
      length_decBytes, List.length_cons]
    omega

/-- The `j`-th symbol completes a byte for five of eight residues of `j` (42_decoder.md R98). -/
theorem completesByte_iff {j : Nat} (hj : 0 < j) : 5 * (j - 1) / 8 < 5 * j / 8 ↔ j % 8 ∈ [2, 4, 5, 7, 0] := by
  simp only [List.mem_cons, List.not_mem_nil, or_false]
  omega

/-- Settles O55: without its padding the text is symbols, whose bits are counted; a byte is due by the count before. -/
theorem decoderByteRhythm : Obligations.DecoderByteRhythm := by
  refine ⟨fun s text hd htext => ⟨_, performWords_eq_performedAll _ s, ?_⟩, fun s c j hj herr hc hn => ?_⟩
  · have hsyms : ∀ c ∈ stripPad s.cfg text, inv s.cfg c ≠ none := by
      intro c hc
      obtain ⟨hmem, hpad⟩ := List.mem_filter.mp hc
      exact (htext c hmem).resolve_left (by simpa using hpad)
    have herr : s.dec.err = false := by rw [hd]; rfl
    have hstart : s.dec.nbits.toNat = 0 := by rw [hd]; rfl
    obtain ⟨hterr, hcount⟩ := bitCount_of_decChars _ herr hsyms (performedAll_decChars_stripPad text s)
    rw [hstart] at hcount
    have hnbits := (performedAll (text.map fun c => encode (.decChar c)) s).dec.nbits.isLt
    dsimp only
    exact ⟨by omega, hterr, by omega⟩
  · obtain ⟨v, hv⟩ := Option.ne_none_iff_exists'.mp hc
    obtain ⟨hout, -⟩ := decChar_of_symbol herr (classify_of_inv_some hv) s.enc
    refine ⟨?_, completesByte_iff hj⟩
    simp only [← completesByte_iff hj]
    rw [emittedBy_encode, hout, List.length_map, length_decBytes, hn]
    split <;> omega

end Sys2Proof.Machine
end

section
/-!
PROOFS. The alphabet mapper (43_alphabet_mapper.md R104, R105): which words are its commands, and that MAP_SYM's result is
its character's class.
-/
namespace Sys2Proof

/-- Form V5 reserves the 11 high bits of the operand (30_encoding.md R56). -/
theorem formV5_of_high_ne_zero {op : Opcode} {D : BitVec 16} (h : D.extractLsb' 5 11 ≠ 0) (f : SymVal → Instr) :
    formV5 op D f = .badOperand op :=
  if_neg h

/-- MAP_VAL's words are `0x70000` to `0x7001F` (30_encoding.md R58). -/
theorem encode_mapVal_eq_or : ∀ val : SymVal, encode (.mapVal val) = 0x70000 ||| val.setWidth 20 := by decide

/-- MAP_SYM's words are `0x80000` to `0x8FFFF` (30_encoding.md R58). -/
theorem encode_mapSym_eq_or (ch : Character) : encode (.mapSym ch) = 0x80000 ||| ch.setWidth 20 := cmdWord_eq_or 0x8 ch

end Sys2Proof

namespace Sys2Proof.Machine

/-- A character has no value when it is no value's symbol (43_alphabet_mapper.md R103). -/
theorem inv_eq_none_iff {cfg : Config} {c : Character} : inv cfg c = none ↔ ∀ v, symbolOf cfg v ≠ c := by
  simp only [Option.eq_none_iff_forall_ne_some, ne_eq, inv_eq_some_iff]

/-- MAP_SYM emits its character's class as a VAL word, and changes nothing else (43_alphabet_mapper.md R105). -/
theorem exec_mapSym_of_classify {s : State} {c : Character} {k : CharClass} (hk : classify s.cfg c = k) :
    exec (.mapSym c) s = .next (emitAll [valWord (classBits k)] s) := by
  rw [exec_eq_performed, performed_of_no_unit rfl rfl, emits, hk]

/-- MAP_SYM of a character outside the table answers `INVALID` (43_alphabet_mapper.md R105). -/
theorem exec_mapSym_of_inv_none {s : State} {c : Character} (hpad : c ≠ s.cfg.pad) (hinv : inv s.cfg c = none) :
    exec (.mapSym c) s = .next (emitAll [valWord 0x0040] s) :=
  exec_mapSym_of_classify (classify_of_inv_none hpad hinv)

/-- Settles O30: one clause per class of character; that `a` is no symbol of the default table is read off `INV`. -/
theorem mapSymClassifiesACharacter : Obligations.MapSymClassifiesACharacter := by
  refine ⟨fun ch => encode_mapSym_eq_or ch ▸ decodeCmd_encode _, fun s => ?padding, fun s val => ?symbol,
    fun s ch hpad hsym => ?foreign, rfl, ?default⟩
  case padding => exact exec_mapSym_of_classify (classify_pad s.cfg)
  case symbol => exact exec_mapSym_of_classify (classify_of_inv_some (inv_symbolOf s.cfg val))
  case foreign => exact exec_mapSym_of_inv_none hpad (inv_eq_none_iff.mpr hsym)
  case default => exact inv_eq_none_iff.mp (foreign_default (c := 0x61) (.inl (by decide))).2

/-- Settles O29: the symbol is the table's entry, and a valid table keeps `PAD` out of its entries. -/
theorem mapValGivesTheSymbol : Obligations.MapValGivesTheSymbol :=
  ⟨fun val => encode_mapVal_eq_or val ▸ decodeCmd_encode _,
    fun D hD => (decodeCmd_cmdWord 0x7 D).trans (formV5_of_high_ne_zero hD _), fun _ _ => rfl, symbolOf_ne_pad,
    rfl, rfl, rfl, rfl⟩

end Sys2Proof.Machine
end

section
/-!
PROOFS. The sole source of a decode error (43_alphabet_mapper.md R108): what sets `dec_err`, and which command words a
STATUS word comes from.
-/
namespace Sys2Proof.Machine

/-- `dec_err` is set only by the DEC_CHAR of an invalid character (42_decoder.md R95). -/
theorem invalid_decChar_of_err_decAfter {cfg : Config} {u : DecUnit} {d : Decoded} (hu : u.err = false)
    (h : (decAfter cfg d u).err = true) : ∃ c, d = .cmd (.decChar c) ∧ c ≠ cfg.pad ∧ inv cfg c = none := by
  have hset : (decAfter cfg d u).err ≠ u.err := by rw [h, hu]; decide
  cases d with
  | illegal | badOperand => exact absurd rfl hset
  | cmd i =>
    cases i with
    | decChar c =>
      obtain ⟨-, hk⟩ | ⟨hpad, hinv, -⟩ | ⟨v, -, -, hk⟩ := classify_cases cfg c
      · rw [(decChar_of_padding hk EncUnit.empty).2] at hset
        exact absurd rfl hset
      · exact ⟨c, rfl, hpad, hinv⟩
      · rw [(decChar_of_symbol hu hk EncUnit.empty).2] at hset
        exact absurd (err_decAfterSym u v) hset
    | decClear | decEnd => cases h
    | _ => exact absurd rfl hset

section
variable {s t : State}

/-- The block sets `dec_err` only by the command at the head of its input. -/
theorem invalid_decChar_of_err_blockTurn (h : blockTurn s = .next t) (hs : s.dec.err = false) (ht : t.dec.err = true) :
    ∃ c rest, s.input = encode (.decChar c) :: rest ∧ c ≠ s.cfg.pad ∧ inv s.cfg c = none := by
  obtain ⟨-, rfl⟩ | ⟨C, rest, -, -, -, -, rfl⟩ | ⟨C, rest, hin, -, -, -, rfl⟩ := blockTurn_cases h
  · exact absurd (hs.symm.trans ht) Bool.false_ne_true
  · exact absurd (hs.symm.trans ht) Bool.false_ne_true
  · obtain ⟨c, hC, hc⟩ := invalid_decChar_of_err_decAfter hs ht
    exact ⟨c, rest, by rw [hin, encode_eq_of_decodeCmd_eq hC], hc⟩

/-- A step sets `dec_err` only by the block's turn: a push and a pop leave the decoder, and a reset clears it. -/
theorem invalid_decChar_of_err_step (h : step s = .next t) (hs : s.dec.err = false) (ht : t.dec.err = true) :
    ∃ c rest, s.input = encode (.decChar c) :: rest ∧ c ≠ s.cfg.pad ∧ inv s.cfg c = none := by
  obtain ⟨-, hblock⟩ | ⟨C, -, rfl⟩ | ⟨-, hpop⟩ | ⟨-, rfl⟩ := step_cases h
  · exact invalid_decChar_of_err_blockTurn (s := { s with turns := s.turns.tail }) hblock hs ht
  · exact absurd (hs.symm.trans ht) Bool.false_ne_true
  · obtain ⟨-, ⟨-, rfl⟩ | ⟨w, ws, -, -, rfl⟩⟩ := hostPop_cases hpop <;>
      exact absurd (hs.symm.trans ht) Bool.false_ne_true
  · cases ht

end

/-- No two statuses have one code (30_encoding.md R65). -/
theorem statusBits_injective : Function.Injective statusBits
  | .ok, .ok, _ | .invalidSymbol, .invalidSymbol, _ | .illegalOpcode, .illegalOpcode, _
  | .badOperand, .badOperand, _ => rfl

/-- A STATUS word names one opcode and one code (30_encoding.md R64, R65). -/
theorem eq_of_statusWord_eq {op op' : Opcode} {code code' : StatusCode}
    (h : statusWord op code = statusWord op' code') : op = op' ∧ code = code' := by
  have hnum := congrArg BitVec.toNat h
  rw [toNat_statusWord, toNat_statusWord] at hnum
  have hlt := (statusBits code).isLt
  have hlt' := (statusBits code').isLt
  exact ⟨BitVec.eq_of_toNat_eq (by omega), statusBits_injective (BitVec.eq_of_toNat_eq (by omega))⟩

section
variable {op : Opcode} {code : StatusCode} {cfg : Config} {e : EncUnit}

/-- STATUS words are those of tag 3 (30_encoding.md R60). -/
theorem statusWord_ne_of_tagOf_ne {w : OutWord} (h : tagOf w ≠ 3) : statusWord op code ≠ w :=
  fun hw => h (hw ▸ tagOf_statusWord op code)

/-- ENC_END's words before its report are symbols (41_encoder.md R88). -/
theorem statusWord_notMem_fillWords_append_padWords :
    statusWord op code ∉ fillWords cfg e ++ padWords cfg (endNsym e) := by
  intro h
  rw [fillWords, padWords_eq] at h
  obtain hfill | hpad := List.mem_append.mp h
  · split at hfill
    · exact statusWord_ne_symWord _ _ _ (List.mem_singleton.mp hfill)
    · exact nomatch hfill
  · exact statusWord_ne_symWord _ _ _ (List.eq_of_mem_replicate hpad)

/-- DEC_CHAR emits bytes at most (42_decoder.md R95). -/
theorem statusWord_notMem_emits_decChar {u : DecUnit} {c : Character} :
    statusWord op code ∉ emits cfg e u (.cmd (.decChar c)) := by
  intro h
  cases herr : u.err with
  | true => rw [(decChar_of_err herr e).1] at h; exact nomatch h
  | false =>
    obtain ⟨-, hk⟩ | ⟨-, -, hk⟩ | ⟨v, -, -, hk⟩ := classify_cases cfg c
    · rw [(decChar_of_padding hk e).1] at h; exact nomatch h
    · rw [(decChar_of_invalid hk e).1] at h; exact nomatch h
    · rw [(decChar_of_symbol herr hk e).1] at h
      obtain ⟨b, -, hw⟩ := List.mem_map.mp h
      exact statusWord_ne_of_tagOf_ne (by rw [tagOf_byteWord]; decide) hw.symm

/-- Where a STATUS word comes from: an interface error, ENC_END or DEC_END (30_encoding.md R67). -/
theorem source_of_statusWord_mem_emits {u : DecUnit} {d : Decoded} (h : statusWord op code ∈ emits cfg e u d) :
    (d = .illegal op ∧ code = .illegalOpcode) ∨ (d = .badOperand op ∧ code = .badOperand) ∨
    (d = .cmd .encEnd ∧ op = 0x3 ∧ code = .ok) ∨ (d = .cmd .decEnd ∧ op = 0x6 ∧ code = endCode u) := by
  cases d with
  | illegal op' =>
    obtain ⟨rfl, hcode⟩ := eq_of_statusWord_eq (List.mem_singleton.mp h)
    exact .inl ⟨rfl, hcode⟩
  | badOperand op' =>
    obtain ⟨rfl, hcode⟩ := eq_of_statusWord_eq (List.mem_singleton.mp h)
    exact .inr (.inl ⟨rfl, hcode⟩)
  | cmd i =>
    cases i with
    | encEnd =>
      have hreport := (List.mem_append.mp h).resolve_left statusWord_notMem_fillWords_append_padWords
      exact .inr (.inr (.inl ⟨rfl, eq_of_statusWord_eq (List.mem_singleton.mp hreport)⟩))
    | decEnd => exact .inr (.inr (.inr ⟨rfl, eq_of_statusWord_eq (List.mem_singleton.mp h)⟩))
    | nop | encClear | decClear => exact nomatch h
    | encByte b =>
      obtain ⟨g, -, hw⟩ := List.mem_map.mp h
      exact absurd hw.symm (statusWord_ne_symWord _ _ _)
    | decChar c => exact absurd h statusWord_notMem_emits_decChar
    | mapVal v => exact absurd (List.mem_singleton.mp h) (statusWord_ne_symWord _ _ _)
    | mapSym c =>
      exact absurd (List.mem_singleton.mp h) (statusWord_ne_of_tagOf_ne (by rw [tagOf_valWord]; decide))
    | stripChar c =>
      rw [emits] at h
      split at h
      · exact nomatch h
      · exact absurd (List.mem_singleton.mp h) (statusWord_ne_symWord _ _ _)

end

/-- DEC_END reports `dec_err` (42_decoder.md R96). -/
theorem endCode_eq_invalidSymbol_iff {u : DecUnit} : endCode u = .invalidSymbol ↔ u.err = true := by
  cases h : u.err <;> simp [endCode, h]

/-- `INVALID_SYMBOL` comes only from the DEC_END of a failed frame (42_decoder.md R96). -/
theorem decEnd_of_invalidSymbol_mem_emittedBy {s : State} {C : CmdWord} {op : Opcode}
    (h : statusWord op .invalidSymbol ∈ emittedBy C s) : C = encode .decEnd ∧ op = 0x6 ∧ s.dec.err = true := by
  rw [emittedBy_eq] at h
  obtain ⟨-, hcode⟩ | ⟨-, hcode⟩ | ⟨-, -, hcode⟩ | ⟨hC, hop, hcode⟩ := source_of_statusWord_mem_emits h
  · cases hcode
  · cases hcode
  · cases hcode
  · exact ⟨(encode_eq_of_decodeCmd_eq hC).symm, hop, endCode_eq_invalidSymbol_iff.mp hcode.symm⟩

/-- An interface error leaves the decoder (60_exceptions.md R116). -/
theorem decAfter_of_error {d : Decoded} {op : Opcode} (h : d = .illegal op ∨ d = .badOperand op) (cfg : Config)
    (u : DecUnit) : decAfter cfg d u = u := by
  obtain rfl | rfl := h <;> rfl

/-- Settles O35: one lemma for what sets `dec_err` and one for where a STATUS word comes from. -/
theorem invalidSymbolHasOneSource : Obligations.InvalidSymbolHasOneSource := by
  refine ⟨fun _ _ => invalid_decChar_of_err_step, fun _ _ _ => decEnd_of_invalidSymbol_mem_emittedBy,
    fun s t ch hpad hinv h => ?_, fun s t C op hC h => ?_⟩
  · rw [exec_mapSym_of_inv_none hpad hinv] at h
    cases h
    exact ⟨rfl, rfl⟩
  · rw [perform_eq_performed] at h
    cases h
    exact decAfter_of_error hC s.cfg s.dec

end Sys2Proof.Machine
end

section
/-!
PROOFS. Control (44_control.md): every command word has a next state (R111), and NOP does nothing and needs no room (R109).
-/
namespace Sys2Proof.Machine

/-- Settles O20: every decoded word, an error's too, has its performed state next. -/
theorem everyWordCompletes : Obligations.EveryWordCompletes :=
  fun C s => ⟨performed (decodeCmd C) s, perform_eq_performed (decodeCmd C) s⟩

/-- A word of `MAXOUT` 0 needs no free room in `OUTQ` (30_encoding.md R69, 70_reset_and_hazards.md R138). -/
theorem accept_of_maxOut_eq_zero {s : State} {C : CmdWord} (hC : maxOut (decodeCmd C) = 0) (hrst : s.rstSeen = true)
    (hdepth : s.outq.length ≤ s.cfg.outDepth) : accept s C = true :=
  accept_iff.mpr ⟨hrst, by rwa [hC, Nat.add_zero]⟩

/-- Settles O21: the effect is the definition's, form Z reserves the whole operand, and NOP's `MAXOUT` is 0. -/
theorem nopDoesNothing : Obligations.NopDoesNothing :=
  have hword : decodeCmd 0x00000 = .cmd .nop := decodeCmd_encode .nop
  have hroom : maxOut (decodeCmd 0x00000) = 0 := congrArg maxOut hword
  ⟨hword, fun _ => rfl, fun D hD => (decodeCmd_cmdWord 0x0 D).trans (formZ_of_ne_zero hD _),
    fun _ hrst hfull => accept_of_maxOut_eq_zero hroom hrst hfull.le⟩

end Sys2Proof.Machine
end

section
/-!
PROOFS. The two interface errors (60_exceptions.md R113, R114, R116): which words they are, form by form, and that
performing one emits its STATUS word and does nothing else.
-/
namespace Sys2Proof

theorem formZ_eq_badOperand_iff {op op' : Opcode} {D : BitVec 16} {i : Instr} :
    formZ op D i = .badOperand op' ↔ op = op' ∧ D ≠ 0 := by
  by_cases h : D = 0#16 <;> simp [formZ, h]

theorem formB8_eq_badOperand_iff {op op' : Opcode} {D : BitVec 16} {f : Byte → Instr} :
    formB8 op D f = .badOperand op' ↔ op = op' ∧ 256 ≤ D.toNat := by
  rw [← not_lt, ← Machine.high_zero_iff_lt]
  by_cases h : D.extractLsb' 8 8 = 0#8 <;> simp [formB8, h]

/-- The 11 bits form V5 reserves are 0 when the operand is a value 0..31 (30_encoding.md R57). -/
theorem top_eleven_zero_iff_lt {D : BitVec 16} : D.extractLsb' 5 11 = 0#11 ↔ D.toNat < 32 := by
  have := D.isLt
  rw [← BitVec.toNat_inj, BitVec.extractLsb'_toNat, Nat.shiftRight_eq_div_pow, BitVec.toNat_zero]
  omega

theorem formV5_eq_badOperand_iff {op op' : Opcode} {D : BitVec 16} {f : SymVal → Instr} :
    formV5 op D f = .badOperand op' ↔ op = op' ∧ 32 ≤ D.toNat := by
  rw [← not_lt, ← top_eleven_zero_iff_lt]
  by_cases h : D.extractLsb' 5 11 = 0#11 <;> simp [formV5, h]

/-- The reserved opcodes are the only source of `ILLEGAL_OPCODE`, which names the word's own opcode (R113). -/
theorem decodeCmd_eq_illegal_iff {C : CmdWord} {op : Opcode} :
    decodeCmd C = .illegal op ↔ opOf C = op ∧ 10 ≤ (opOf C).toNat := by
  constructor
  · intro h
    rw [decodeCmd] at h
    obtain ⟨i, hi, -⟩ | ⟨hop, hill⟩ | ⟨-, -, hbad⟩ | ⟨-, -, hbad⟩ | ⟨-, -, hbad⟩ :=
      decodeFields_cases (opOf C) (dataOf C)
    · exact nomatch hi.symm.trans h
    · exact ⟨Decoded.illegal.inj (hill.symm.trans h), hop⟩
    all_goals exact nomatch hbad.symm.trans h
  · rintro ⟨rfl, hop⟩
    exact decodeFields_of_ten_le hop _

/-- The words of `BAD_OPERAND`, opcode by opcode: the forms Z, B8 and V5 reserve operand bits, form C16 reserves none
(30_encoding.md R56, R58). -/
theorem decodeCmd_eq_badOperand_iff {C : CmdWord} {op : Opcode} : decodeCmd C = .badOperand op ↔ opOf C = op ∧
    ((opOf C).toNat ∈ [0, 1, 3, 4, 6] ∧ dataOf C ≠ 0 ∨ (opOf C).toNat = 2 ∧ 256 ≤ (dataOf C).toNat ∨
      (opOf C).toNat = 7 ∧ 32 ≤ (dataOf C).toNat) := by
  rw [decodeCmd]
  generalize opOf C = op', dataOf C = D
  obtain h | rfl | rfl | rfl | rfl | rfl | rfl | rfl | rfl | rfl | rfl := opcode_cases op'
  · have hop : 10 ≤ op'.toNat := h
    rw [decodeFields_of_ten_le hop]
    refine iff_of_false nofun fun ⟨_, hform⟩ => ?_
    simp only [List.mem_cons, List.not_mem_nil, or_false] at hform
    omega
  all_goals simp [decodeFields, formZ_eq_badOperand_iff, formB8_eq_badOperand_iff, formV5_eq_badOperand_iff]

end Sys2Proof

namespace Sys2Proof.Machine

/-- Settles O7: `decodeCmd_eq_illegal_iff` says which words they are; raising the error is the definition's. -/
theorem reservedOpcodesReportIllegal : Obligations.ReservedOpcodesReportIllegal := by
  refine fun C => ⟨by simp [decodeCmd_eq_illegal_iff], fun hop s => ?_⟩
  rw [decodeCmd_eq_illegal_iff.mpr ⟨rfl, hop⟩]
  rfl

/-- Settles O8: `decodeCmd_eq_badOperand_iff` says which words they are; raising the error is the definition's. -/
theorem reservedOperandBitsReportBadOperand : Obligations.ReservedOperandBitsReportBadOperand := by
  refine fun C => ⟨by simp [decodeCmd_eq_badOperand_iff], fun ⟨op, h⟩ s => ?_⟩
  obtain ⟨rfl, -⟩ := decodeCmd_eq_badOperand_iff.mp h
  rw [h]
  rfl

end Sys2Proof.Machine
end

section
/-!
PROOFS. The block's turn on an accepted head word (60_exceptions.md R116, 70_reset_and_hazards.md R132), and that no turn
stops the machine in a state a reset leads to (60_exceptions.md R122, R130).
-/
namespace Sys2Proof.Machine

/-- On the block's turn, a listed one or that of an empty schedule, a step is `blockTurn`. -/
theorem step_eq_blockTurn {s : State} {ts : List Turn} (h : s.turns = .block :: ts ∨ (s.turns = [] ∧ ts = [])) :
    step s = blockTurn { s with turns := ts } := by
  rw [step_eq_doTurn]
  obtain h | ⟨h, rfl⟩ := h <;> rw [h] <;> rfl

/-- Settles O11: on the block's turn the accepted head word is removed and performed. -/
theorem stepPerformsTheHeadWord : Obligations.StepPerformsTheHeadWord := by
  intro s C rest ts hr hw hi ha hturn
  have hstep : step s = perform (decodeCmd C) { s with input := rest, turns := ts } :=
    (step_eq_blockTurn hturn).trans (blockTurn_accepts hi hr hw ha)
  refine ⟨fun i hC => ?_, fun op hC => ?_, fun op hC => ?_⟩ <;> rw [hstep, hC] <;> rfl

/-- After a reset a pop has a next state when the block can have produced every word of `OUTQ` (30_encoding.md R67). -/
theorem hostPop_completes {s : State} (hr : s.rstSeen = true) (hp : ∀ w ∈ s.outq, producible w = true) :
    ∃ t, hostPop s = .next t := by
  rw [hostPop, if_pos hr]
  split
  case h_1 => exact ⟨_, rfl⟩
  case h_2 w ws ho => exact ⟨_, if_pos (hp w (by simp [ho]))⟩

/-- Settles O41, turn by turn: a command needs the units' part of the invariant, a pop the queue's part. -/
theorem noStepStopsAfterReset : Obligations.NoStepStopsAfterReset := by
  intro s hs hr
  obtain ⟨henc, hdec, -, hprod⟩ := stateInv_iff.mp hs
  rw [step_eq_doTurn]
  cases s.turns.headD .block with
  | block => exact blockTurn_completes hr (unitsWf_iff.mpr ⟨henc, hdec⟩)
  | push C => exact ⟨_, rfl⟩
  | pop => exact hostPop_completes hr hprod
  | reset => exact ⟨_, rfl⟩

end Sys2Proof.Machine
end

section
/-!
PROOFS. Several machines side by side (60_exceptions.md R128, 10_state.md R22): a step at a place is the step of the machine
there, written at that place, so a run of the system is, at each place, the run of as many steps of that machine alone.
-/
namespace Sys2Proof.Machine

variable {sys sys' : Instances} {j k : Nat} {s t : State}

theorem cfg_of_stateAt (h : sys.stateAt k = some s) : s.cfg = sys.cfg := by
  obtain ⟨o, -, rfl⟩ := Option.map_eq_some_iff.mp h
  rfl

/-- A state of the shared configuration that is written at a place stands there. -/
theorem stateAt_set_self (h : sys.stateAt k = some s) (hcfg : t.cfg = sys.cfg) :
    ({ sys with own := sys.own.set k t.ownPart } : Instances).stateAt k = some t := by
  rw [stateAt_set, if_pos rfl, h, ← hcfg]
  rfl

theorem stateAt_set_ne (h : k ≠ j) (o : OwnState) :
    ({ sys with own := sys.own.set k o } : Instances).stateAt j = sys.stateAt j := by
  rw [stateAt_set, if_neg h]

/-- A step at a place keeps the shared configuration (10_state.md R22). -/
theorem cfg_of_step_of_stateAt (h : sys.stateAt k = some s) (ht : step s = .next t) : t.cfg = sys.cfg :=
  (configurationIsNeverWritten s t ht).1.trans (cfg_of_stateAt h)

/-- Seen from the place `k`, a step of the system is a step of its machine if the place is `k`, and else nothing. -/
theorem stateAt_of_stepInstance (hs : sys.stateAt k = some s) (h : stepInstance j sys = .next sys') :
    (j = k ∧ ∃ t, step s = .next t ∧ sys'.stateAt k = some t) ∨ (j ≠ k ∧ sys'.stateAt k = some s) := by
  obtain ⟨hnone, rfl⟩ | ⟨u, t, hu, ht, rfl⟩ := stepInstance_cases h
  · refine .inr ⟨?_, hs⟩
    rintro rfl
    exact nomatch hnone.symm.trans hs
  · by_cases hjk : j = k
    · subst hjk
      obtain rfl : u = s := Option.some.inj (hu.symm.trans hs)
      exact .inl ⟨rfl, t, ht, stateAt_set_self hs (cfg_of_step_of_stateAt hs ht)⟩
    · exact .inr ⟨hjk, (stateAt_set_ne hjk _).trans hs⟩

theorem stepInstances_cons_eq_next_iff {ks : List Nat} :
    stepInstances (k :: ks) sys = .next sys' ↔ ∃ u, stepInstance k sys = .next u ∧ stepInstances ks u = .next sys' := by
  rw [stepInstances]
  cases stepInstance k sys <;> simp

/-- Whatever the interleaving, each machine is where its own steps alone lead (60_exceptions.md R128). -/
theorem stateAt_of_stepInstances {ks : List Nat} (hs : sys.stateAt k = some s)
    (h : stepInstances ks sys = .next sys') : ∃ t, runFor (ks.count k) s = .next t ∧ sys'.stateAt k = some t := by
  induction ks generalizing sys s with
  | nil =>
    cases h
    exact ⟨s, rfl, hs⟩
  | cons j ks ih =>
    obtain ⟨u, hu, hrest⟩ := stepInstances_cons_eq_next_iff.mp h
    obtain ⟨rfl, v, hv, huk⟩ | ⟨hjk, huk⟩ := stateAt_of_stepInstance hs hu
    · obtain ⟨t, ht, hk⟩ := ih huk hrest
      rw [List.count_cons_self]
      exact ⟨t, runFor_succ_eq_next_iff.mpr ⟨v, hv, ht⟩, hk⟩
    · rw [List.count_cons_of_ne hjk]
      exact ih huk hrest

/-- Settles O47: an outcome of the machine at a place is the system's, and writing one place leaves the others. -/
theorem instancesDoNotDisturbEachOther : Obligations.InstancesDoNotDisturbEachOther := by
  refine ⟨fun k sys s hs => ⟨cfg_of_stateAt hs, fun t ht => ?next, fun r hr => ?fault, fun r hr => ?refused⟩,
    fun ks sys sys' k s h hs => stateAt_of_stepInstances hs h⟩
  case next =>
    exact ⟨{ sys with own := sys.own.set k t.ownPart }, by simp [stepInstance, hs, ht], rfl,
      stateAt_set_self hs (cfg_of_step_of_stateAt hs ht), fun j hj => stateAt_set_ne hj.symm _, List.length_set⟩
  case fault => simp [stepInstance, hs, hr]
  case refused => simp [stepInstance, hs, hr]

end Sys2Proof.Machine
end

section
/-!
PROOFS. How the host reads a decoder frame, entry by entry, and whole frames among other commands (70_reset_and_hazards.md
R142). A reader looks only at its unit's commands, which emit among others what they emit alone; so a frame is read alone,
and what it emits is known from R83 and R84.
-/
namespace Sys2Proof.Machine

section
variable (bs : List Byte) (es : List TraceEntry) (s : State)

/-- The bytes of a DEC_CHAR join the open frame. -/
theorem decFrames_decChar (c : Character) (out : List OutWord) :
    decFrames bs (.cmd (encode (.decChar c)) out :: es) = decFrames (bs ++ bytesIn out) es := by
  have hop : (opOf (encode (.decChar c))).toNat = 5 := congrArg BitVec.toNat (opOf_cmdWord 0x5 c)
  simp only [decFrames, hop]

/-- DEC_CLEAR abandons the open frame: its bytes are dropped. -/
theorem decFrames_decClear : decFrames bs (.cmd (encode .decClear) [] :: es) = decFrames [] es := by
  have hop : (opOf (encode .decClear)).toNat = 4 := congrArg BitVec.toNat (opOf_cmdWord 0x4 0)
  simp only [decFrames, hop, if_true]

/-- A rejected DEC_END leaves the frame open. -/
theorem decFrames_rejected_decEnd (D : BitVec 16) :
    decFrames bs (.cmd (cmdWord 0x6 D) [statusWord 0x6 .badOperand] :: es) = decFrames bs es := by
  have hop : (opOf (cmdWord 0x6 D)).toNat = 6 := congrArg BitVec.toNat (opOf_cmdWord 0x6 D)
  have hok : [statusWord 0x6 .badOperand] ≠ [statusWord 0x6 .ok] := by decide
  have hinvalid : [statusWord 0x6 .badOperand] ≠ [statusWord 0x6 .invalidSymbol] := by decide
  simp only [decFrames, hop, if_neg hok, if_neg hinvalid]

/-- An accepted DEC_END ends the open frame with its result, by the `dec_err` it finds (42_decoder.md R96). -/
theorem decFrames_decEnd :
    decFrames bs (.cmd (encode .decEnd) (emits s.cfg s.enc s.dec (.cmd .decEnd)) :: es) =
      (if s.dec.err then .decodeError else .ok bs) :: decFrames [] es := by
  have hop : (opOf (encode .decEnd)).toNat = 6 := congrArg BitVec.toNat (opOf_cmdWord 0x6 0)
  have hne : statusWord 6#4 .invalidSymbol ≠ statusWord 6#4 .ok := by decide
  cases herr : s.dec.err with
  | false => simp [decFrames, hop, emits, endCode, herr]
  | true => simp [decFrames, hop, emits, endCode, herr, hne]

/-- The bytes of a frame's characters join it one after another. -/
theorem decFrames_decChars (text : List Character) :
    decFrames bs (traceOf (text.map fun c => encode (.decChar c)) s ++ es) =
      decFrames (bs ++ bytesIn (wordsInOrder (text.map fun c => encode (.decChar c)) s)) es := by
  induction text generalizing bs s with
  | nil => simp [traceOf, bytesIn]
  | cons c text ih =>
    rw [List.map_cons, traceOf_cons, List.cons_append, decFrames_decChar, ih, wordsInOrder_cons, bytesIn_append,
      List.append_assoc]

end

/-- A frame of the decoder's commands alone emits the bytes before its first foreign character and the status (R84). -/
theorem wordsInOrder_decFrame (text : List Character) {s : State} (hd : s.dec = DecUnit.empty) :
    wordsInOrder (text.map (fun c => encode (.decChar c)) ++ [encode .decEnd]) s =
      (decodeBytes (symStream ((beforeForeign s.cfg text).filterMap (inv s.cfg)))).map byteWord ++
        [statusWord 0x6 (textCode s.cfg text)] := by
  have hkeep : ∀ i ∈ text.map Instr.decChar ++ [.decEnd], isDecCmd i = true := by
    intro i hi
    obtain hchar | hend := List.mem_append.mp hi
    · obtain ⟨c, -, rfl⟩ := List.mem_map.mp hchar
      rfl
    · rw [List.mem_singleton.mp hend]
      rfl
  rw [← wordsOf_decFrame text hd, ← wordsInOrder_map_encode hkeep s, List.map_append, List.map_map]
  rfl

/-- A frame's characters from an empty decoder give the bytes before the first foreign character, which sets `dec_err`. -/
theorem decChars_of_empty (text : List Character) {s : State} (hd : s.dec = DecUnit.empty) :
    wordsInOrder (text.map fun c => encode (.decChar c)) s =
        (decodeBytes (symStream ((beforeForeign s.cfg text).filterMap (inv s.cfg)))).map byteWord ∧
      (performedAll (text.map fun c => encode (.decChar c)) s).dec.err = text.any (isForeign s.cfg) := by
  have hframe := wordsInOrder_decFrame text hd
  rw [wordsInOrder_append, wordsInOrder_cons, decodeCmd_encode, wordsInOrder_nil, List.append_nil, emits] at hframe
  obtain ⟨hbytes, hstatus⟩ := List.append_inj' hframe rfl
  obtain ⟨-, hcode⟩ := eq_of_statusWord_eq (List.singleton_inj.mp hstatus)
  refine ⟨hbytes, Bool.eq_iff_iff.mpr ?_⟩
  rw [← endCode_eq_invalidSymbol_iff, hcode, textCode]
  simp

/-- A decoder frame alone is read as `DECODE` of its text. -/
theorem decFrames_decFrame (text : List Character) {s : State} (hd : s.dec = DecUnit.empty) :
    decFrames [] (traceOf (text.map (fun c => encode (.decChar c)) ++ [encode .decEnd]) s) =
      [refDecode s.cfg text] := by
  obtain ⟨hwords, herr⟩ := decChars_of_empty text hd
  rw [traceOf_append, decFrames_decChars, traceOf_cons, decodeCmd_encode, decFrames_decEnd, hwords, herr,
    bytesIn_map_byteWord, List.nil_append, refDecode_eq]
  cases hany : text.any (isForeign s.cfg) with
  | true => rfl
  | false => rw [beforeForeign_of_no_foreign hany]; rfl

/-- An encoder frame alone is read as `ENCODE` of its bytes. -/
theorem encFrames_encFrame (bytes : List Byte) {s : State} (he : s.enc = EncUnit.empty) :
    encFrames .fresh (traceOf (bytes.map (fun b => encode (.encByte b)) ++ [encode .encEnd]) s) =
      [.text (refEncode s.cfg bytes)] := by
  have hsyms := congrArg symsIn (wordsInOrder_encFrame bytes he)
  rw [wordsInOrder_append, wordsInOrder_cons, decodeCmd_encode, wordsInOrder_nil, List.append_nil, symsIn_append,
    symsIn_append, symsIn_map_symWord, symsIn_statusWord, List.append_nil] at hsyms
  rw [traceOf_append, encFrames_encBytes, traceOf_cons, decodeCmd_encode, encFrames_encEnd, ← hsyms]
  rfl

/-- `read` looks only at the entries of the commands `keep` picks, and goes through the trace entry by entry. -/
structure ReadsOnly {ρ β : Type} (keep : Instr → Bool) (read : ρ → List TraceEntry → List β) : Prop where
  skips : ∀ {i}, keep i = false → ∀ r out es, read r (.cmd (encode i) out :: es) = read r es
  cons_congr : ∀ {es es'}, (∀ r, read r es = read r es') → ∀ entry r, read r (entry :: es) = read r (entry :: es')

/-- Commands outside the decoder belong to no decoder frame (70_reset_and_hazards.md R142). -/
theorem readsOnly_decFrames : ReadsOnly isDecCmd decFrames where
  skips {i} hi bs out es := by
    cases i with
    | decClear | decChar | decEnd => cases hi
    | _ => simp [decFrames, encode]
  cons_congr h entry bs := by
    cases entry with
    | reset => exact h []
    | cmd C out => simp only [decFrames, h]

/-- Commands outside the encoder belong to no encoder frame (70_reset_and_hazards.md R142). -/
theorem readsOnly_encFrames : ReadsOnly isEncCmd encFrames where
  skips {i} hi r out es := by
    cases i with
    | encClear | encByte | encEnd => cases hi
    | _ => simp [encFrames, encode]
  cons_congr h entry r := by
    cases entry with
    | reset => exact h .fresh
    | cmd C out => simp only [encFrames, h]

/-- Of an isolated unit its reader reads among other commands what it reads of the unit's own commands alone. -/
theorem Isolated.read_filter {α ρ β : Type} {keep : Instr → Bool} {view : State → α}
    {read : ρ → List TraceEntry → List β} (iso : Isolated keep view) (hread : ReadsOnly keep read) (is : List Instr)
    {s s' : State} (hv : view s = view s') (r : ρ) :
    read r (traceOf (is.map encode) s) = read r (traceOf ((is.filter keep).map encode) s') := by
  induction is generalizing s s' r with
  | nil => rfl
  | cons i is ih =>
    rw [List.map_cons, traceOf_cons, decodeCmd_encode]
    cases hi : keep i with
    | true =>
      rw [List.filter_cons_of_pos hi, List.map_cons, traceOf_cons, decodeCmd_encode, iso.emits_eq hi hv]
      exact hread.cons_congr (ih (iso.view_kept hi hv)) _ r
    | false =>
      rw [List.filter_cons_of_neg (by simp [hi]), hread.skips hi]
      exact ih ((iso.view_other hi s).trans hv) r

/-- Settles O58: among other commands a frame is read as it is alone. -/
theorem hostReadsWholeFrames : Obligations.HostReadsWholeFrames := by
  refine ⟨fun s is text hd hframe => ?_, fun s is bytes he hframe => ?_⟩
  · rw [isolated_decoder.read_filter readsOnly_decFrames is rfl, hframe, List.map_append, List.map_map]
    exact decFrames_decFrame text hd
  · rw [isolated_encoder.read_filter readsOnly_encFrames is rfl, hframe, List.map_append, List.map_map]
    exact encFrames_encFrame bytes he

end Sys2Proof.Machine
end

section
/-!
PROOFS. Frames that are abandoned and frames that go on (70_reset_and_hazards.md R142): a CLEAR is the start of a frame for
the unit and for its reader, and a rejected END (60_exceptions.md R114) is nothing to either of them.
-/
namespace Sys2Proof.Machine

theorem encFrames_encClear (r : EncReader) (es : List TraceEntry) :
    encFrames r (.cmd (encode .encClear) [] :: es) = encFrames .fresh es := by
  have hop : (opOf (encode .encClear)).toNat = 1 := congrArg BitVec.toNat (opOf_cmdWord 0x1 0)
  simp only [encFrames, hop, if_true]

/-- A rejected ENC_END leaves the frame open. -/
theorem encFrames_rejected_encEnd (r : EncReader) (D : BitVec 16) (es : List TraceEntry) :
    encFrames r (.cmd (cmdWord 0x3 D) [statusWord 0x3 .badOperand] :: es) = encFrames r es := by
  have hop : (opOf (cmdWord 0x3 D)).toNat = 3 := congrArg BitVec.toNat (opOf_cmdWord 0x3 D)
  have hout : [statusWord 0x3 .badOperand].getLast? ≠ some (statusWord 0x3 .ok) := by decide
  simp only [encFrames, hop, if_neg hout]

/-- A rejected word among others is in the trace with its status, and the others' entries are as they are without it. -/
theorem traceOf_rejected {C : CmdWord} {op : Opcode} (hC : decodeCmd C = .badOperand op) (Cs Ds : List CmdWord)
    (s : State) : traceOf (Cs ++ C :: Ds) s =
      traceOf Cs s ++ .cmd C [statusWord op .badOperand] :: traceOf Ds (performedAll Cs s) := by
  rw [traceOf_append, traceOf_cons, hC,
    traceOf_eq_of_cmdView_eq Ds (cmdView_performed_badOperand op (performedAll Cs s))]
  rfl

/-- A decoder frame after an abandoned one is read as if it came first. -/
theorem decFrames_abandoned (text : List Character) (Cs : List CmdWord) (s : State) :
    decFrames [] (traceOf (text.map (fun c => encode (.decChar c)) ++ encode .decClear :: Cs) s) =
      decFrames [] (traceOf Cs (performed (.cmd .decClear) (performedAll (text.map fun c => encode (.decChar c)) s))) := by
  rw [traceOf_append, decFrames_decChars, traceOf_cons, decodeCmd_encode]
  exact decFrames_decClear _ _

/-- An encoder frame after an abandoned one is read as if it came first. -/
theorem encFrames_abandoned (bytes : List Byte) (Cs : List CmdWord) (s : State) :
    encFrames .fresh (traceOf (bytes.map (fun b => encode (.encByte b)) ++ encode .encClear :: Cs) s) =
      encFrames .fresh
        (traceOf Cs (performed (.cmd .encClear) (performedAll (bytes.map fun b => encode (.encByte b)) s))) := by
  rw [traceOf_append, encFrames_encBytes, traceOf_cons, decodeCmd_encode]
  exact encFrames_encClear _ _

/-- A decoder frame is read across a rejected DEC_END. -/
theorem decFrames_reopened {D : BitVec 16} (hD : D ≠ 0) (text : List Character) (Cs : List CmdWord) (s : State) :
    decFrames [] (traceOf (text.map (fun c => encode (.decChar c)) ++ cmdWord 0x6 D :: Cs) s) =
      decFrames [] (traceOf (text.map (fun c => encode (.decChar c)) ++ Cs) s) := by
  have hbad : decodeCmd (cmdWord 0x6 D) = .badOperand 0x6 := (decodeCmd_cmdWord 0x6 D).trans (formZ_of_ne_zero hD _)
  rw [traceOf_rejected hbad, traceOf_append, decFrames_decChars, decFrames_decChars, decFrames_rejected_decEnd]

/-- An encoder frame is read across a rejected ENC_END. -/
theorem encFrames_reopened {D : BitVec 16} (hD : D ≠ 0) (bytes : List Byte) (Cs : List CmdWord) (s : State) :
    encFrames .fresh (traceOf (bytes.map (fun b => encode (.encByte b)) ++ cmdWord 0x3 D :: Cs) s) =
      encFrames .fresh (traceOf (bytes.map (fun b => encode (.encByte b)) ++ Cs) s) := by
  have hbad : decodeCmd (cmdWord 0x3 D) = .badOperand 0x3 := (decodeCmd_cmdWord 0x3 D).trans (formZ_of_ne_zero hD _)
  rw [traceOf_rejected hbad, traceOf_append, encFrames_encBytes, encFrames_encBytes, encFrames_rejected_encEnd]

/-- Settles O60: what is left to read is one frame, after a CLEAR the second alone and after a rejected END both as one. -/
theorem abandonedAndReopenedFrames : Obligations.AbandonedAndReopenedFrames := by
  refine ⟨fun s text₁ text₂ _ => ?_, fun s text₁ text₂ D hd hD => ?_, fun s bytes₁ bytes₂ _ => ?_,
    fun s bytes₁ bytes₂ D he hD => ?_, fun _ _ _ => ⟨rfl, rfl⟩⟩ <;>
    simp only [List.append_assoc, List.cons_append, List.nil_append]
  · rw [decFrames_abandoned, decFrames_decFrame _ rfl, performed_cfg, performedAll_cfg]
  · rw [decFrames_reopened hD, ← decFrames_decFrame _ hd, List.map_append, List.append_assoc]
  · rw [encFrames_abandoned, encFrames_encFrame _ rfl, performed_cfg, performedAll_cfg]
  · rw [encFrames_reopened hD, ← encFrames_encFrame _ he, List.map_append, List.append_assoc]

end Sys2Proof.Machine
end

section
/-!
PROOFS. The turns of the schedule (70_reset_and_hazards.md R131-R133, R138, R141): a listed turn is taken, and what the block
and the host then do: perform, hold or refuse the head command; push, pop and reset.
-/
namespace Sys2Proof

/-- A number that is read as a command is the word of that command. -/
theorem decodeCmd_tableWord_of_decodeTableWord {nbits w : Nat} {i : Instr} (h : decodeTableWord nbits w = some i) :
    decodeCmd (tableWord nbits w) = .cmd i := by
  unfold decodeTableWord at h
  split at h
  · split at h
    · rename_i j hj
      rw [hj, Option.some.inj h]
    · cases h
    · cases h
  · cases h

end Sys2Proof

namespace Sys2Proof.Machine

section
variable {s : State} {ts : List Turn}

theorem step_of_turns_eq_cons {turn : Turn} (h : s.turns = turn :: ts) : step s = doTurn turn { s with turns := ts } := by
  rw [step_eq_doTurn, h]
  rfl

/-- On the block's turn an accepted head command is consumed and performed. -/
theorem step_of_accept {C : CmdWord} {rest : List CmdWord} (hturn : s.turns = .block :: ts ∨ (s.turns = [] ∧ ts = []))
    (hi : s.input = C :: rest) (hr : s.rstSeen = true) (hw : unitsWf s = true) (ha : accept s C = true) :
    step s = .next (performed (decodeCmd C) { s with input := rest, turns := ts }) := by
  have hblock := blockTurn_accepts (s := { s with turns := ts }) hi hr hw ha
  rw [step_eq_blockTurn hturn, hblock, perform_eq_performed]

/-- On the block's turn a head command that is not accepted is held: only a listed turn is used up. -/
theorem step_of_hold {C : CmdWord} {rest : List CmdWord} (hturn : s.turns = .block :: ts ∨ (s.turns = [] ∧ ts = []))
    (hi : s.input = C :: rest) (hr : s.rstSeen = true) (hw : unitsWf s = true) (ha : accept s C = false) :
    step s = .next { s with turns := ts } := by
  rw [step_eq_blockTurn hturn]
  exact blockTurn_holds hi hr hw ha

theorem blockTurn_refuses_beforeReset {C : CmdWord} {rest : List CmdWord} (hi : s.input = C :: rest)
    (hr : s.rstSeen = false) : blockTurn s = .refused .beforeReset := by
  simp [blockTurn, hi, hr]

theorem hostPop_of_empty (hr : s.rstSeen = true) (ho : s.outq = []) : hostPop s = .next s := by
  simp [hostPop, hr, ho]

theorem hostPop_of_producible {w : OutWord} {ws : List OutWord} (hr : s.rstSeen = true) (ho : s.outq = w :: ws)
    (hw : producible w = true) : hostPop s = .next { s with outq := ws, popped := s.popped ++ [w] } := by
  simp [hostPop, hr, ho, hw]

theorem hostPop_of_not_producible {w : OutWord} {ws : List OutWord} (hr : s.rstSeen = true) (ho : s.outq = w :: ws)
    (hw : producible w = false) : hostPop s = .fault (.neverProducedWord w) := by
  simp [hostPop, hr, ho, hw]

/-- Every command fits an empty queue (00_scope.md R7, 30_encoding.md R69). -/
theorem accept_of_outq_empty (hr : s.rstSeen = true) (ho : s.outq = []) (C : CmdWord) : accept s C = true := by
  have hmax := maxOut_le_nine (decodeCmd C)
  have hdepth := s.cfg.nine_le_outDepth
  refine accept_iff.mpr ⟨hr, ?_⟩
  rw [ho, List.length_nil]
  omega

end

/-- Settles O16: a reset turn is `assertReset`, which writes each field listed. -/
theorem resetClearsUnitsAndQueue : Obligations.ResetClearsUnitsAndQueue :=
  fun _ _ hturn => step_of_turns_eq_cons hturn

/-- Settles O18: a push is the definition's; a pop is by the head of `OUTQ`. -/
theorem hostPushesAndPops : Obligations.HostPushesAndPops := by
  refine fun s ts => ⟨fun C hturn => step_of_turns_eq_cons hturn, fun hturn hr => ?_⟩
  rw [step_of_turns_eq_cons hturn]
  exact ⟨fun ho => hostPop_of_empty hr ho, fun _ _ ho => hostPop_of_producible hr ho,
    fun _ _ ho => hostPop_of_not_producible hr ho⟩

/-- Settles O14: whichever way the block has its turn, it refuses the command. -/
theorem commandsBeforeResetAreRefused : Obligations.CommandsBeforeResetAreRefused := by
  intro s C rest hr hi hturn
  have hblock : s.turns.headD .block = .block := by
    obtain h | ⟨ts, h⟩ := hturn <;> rw [h] <;> rfl
  rw [step_eq_doTurn, hblock]
  exact blockTurn_refuses_beforeReset hi hr

/-- Settles O12: the presented word is at the head of the input on the block's turn, and is accepted. -/
theorem stepPerformsThePresentedTableWord : Obligations.StepPerformsThePresentedTableWord := by
  intro s nbits w i hr hw hdec hroom
  have hC := decodeCmd_tableWord_of_decodeTableWord hdec
  have ha : accept s (tableWord nbits w) = true := by rw [accept, hr, hC, hroom]; rfl
  calc step (presentWord (tableWord nbits w) s)
      = .next (performed (decodeCmd (tableWord nbits w)) s) := step_of_accept (.inl rfl) rfl hr hw ha
    _ = exec i s := by rw [hC, exec_eq_performed]

/-- Settles O13: a hold leaves the state, acceptance does not read the input, and `MAXOUT` fits an empty queue. -/
theorem holdUntilThereIsRoom : Obligations.HoldUntilThereIsRoom := by
  refine ⟨fun s C => accept_iff.trans (and_congr_right fun _ => by omega),
    fun s C rest hr hw hi ha => ⟨fun hturn => ?unlisted, fun ts hturn => step_of_hold (.inl hturn) hi hr hw ha,
      fun D ts t hturn hstep => ?pushed⟩,
    fun s C hr ho => accept_of_outq_empty hr ho C⟩
  case unlisted => rw [step_of_hold (.inr ⟨hturn, rfl⟩) hi hr hw ha, ← hturn]
  case pushed =>
    rw [step_of_turns_eq_cons hturn] at hstep
    cases hstep
    exact ha

end Sys2Proof.Machine
end

section
/-!
PROOFS. Progress when the host pops (70_reset_and_hazards.md R138, R139, R145): pops in a row empty `OUTQ` into the host's
hands, and every command fits an empty queue, so the block's next turn takes the head command.
-/
namespace Sys2Proof.Machine

/-- The state after the host has popped all of `OUTQ`, with `ts` left of the schedule. -/
def poppedAll (ts : List Turn) (s : State) : State := { s with outq := [], turns := ts, popped := s.popped ++ s.outq }

/-- As many pops as `OUTQ` holds words give the host all of them, in order; then the run goes on. -/
theorem runFor_pops {k : Nat} {s t : State} {ts : List Turn} (hr : s.rstSeen = true)
    (hp : ∀ w ∈ s.outq, producible w = true) (hturns : s.turns = List.replicate s.outq.length .pop ++ ts)
    (h : runFor k (poppedAll ts s) = .next t) : runFor (s.outq.length + k) s = .next t := by
  generalize ho : s.outq = ws at hp hturns ⊢
  induction ws generalizing s with
  | nil =>
    have hself : poppedAll ts s = s := by
      obtain rfl : s.turns = ts := hturns
      rw [poppedAll, ho, List.append_nil, ← ho]
    rw [List.length_nil, Nat.zero_add, ← hself]
    exact h
  | cons w ws ih =>
    obtain ⟨hw, hws⟩ := List.forall_mem_cons.mp hp
    have hstep := (step_of_turns_eq_cons hturns).trans (hostPop_of_producible hr ho hw)
    rw [List.length_cons, Nat.add_right_comm]
    refine runFor_succ_eq_next_iff.mpr ⟨_, hstep, ih hr ?_ rfl hws rfl⟩
    rw [← h]
    simp [poppedAll, ho]

/-- Settles O42: after the pops the queue is empty, so the block accepts the head command. -/
theorem poppingLetsTheHeadCommandThrough : Obligations.PoppingLetsTheHeadCommandThrough := by
  intro s C rest ts hs hr hi hturns
  obtain ⟨henc, hdec, -, hprod⟩ := stateInv_iff.mp hs
  have hstep := step_of_accept (s := poppedAll (.block :: ts) s) (.inl rfl) hi hr (unitsWf_iff.mpr ⟨henc, hdec⟩)
    (accept_of_outq_empty (s := poppedAll (.block :: ts) s) hr rfl C)
  exact ⟨_, runFor_pops hr hprod hturns (runFor_succ_eq_next_iff.mpr ⟨_, hstep, rfl⟩), rfl, rfl, rfl⟩

end Sys2Proof.Machine
end
